-- ==== Sys2Proof/Word.lean ====
section
/-! DEFINITION. The words the command interface is made of (30_encoding.md R61; 00_scope.md R8). -/

namespace Sys2Proof

/-- A command word: 32 bits, bit 0 least significant (R61, R9). -/
abbrev Word := BitVec 32

/-- The signed immediate field of a command word (R61, R65). -/
abbrev Imm16 := BitVec 16

/-- A narrower unit a platform may cut a command word into (R45). -/
abbrev Byte := BitVec 8

end Sys2Proof
end

