-- ==== Sys2Proof/Syntax.lean ====
section
/-! DEFINITION. Commands: the instruction a word stands for, the payload beside it, and the pair of the two
(30_encoding.md R60 to R69, R75). -/

namespace Sys2Proof

/-- A polynomial register: PA, PB or PR (10_state.md R20; `psel` 0, 1, 2 of R64). -/
inductive PolyReg where
  | pa
  | pb
  | pr
deriving DecidableEq, Repr

/-- A register a load may name: PR is written only by a multiply (R64, D30). -/
inductive LoadReg where
  | pa
  | pb
deriving DecidableEq, Repr

/-- The polynomial register a load names. -/
def LoadReg.toPolyReg : LoadReg → PolyReg
  | .pa => .pa
  | .pb => .pb

/-- The twelve commands of R63, each with the operands its word carries. An immediate is the signed integer of R65. -/
inductive Instr where
  /-- LDC Pd (R94) -/
  | ldc (d : LoadReg)
  /-- LDI Pd (R95) -/
  | ldi (d : LoadReg)
  /-- STC Ps (R96) -/
  | stc (r : PolyReg)
  /-- STI Ps (R97) -/
  | sti (r : PolyReg)
  /-- DEG Ps (R98) -/
  | deg (r : PolyReg)
  /-- COEF Ps, idx (R99) -/
  | coef (r : PolyReg) (idx : Int)
  /-- MULN (R110) -/
  | muln
  /-- MULB m (R130) -/
  | mulb (m : Int)
  /-- MULC w (R150) -/
  | mulc (w : Int)
  /-- TBLD m (R122) -/
  | tbld (m : Int)
  /-- TBLQ (R123) -/
  | tblq
  /-- TBLX (R124) -/
  | tblx
deriving DecidableEq, Repr

/-- The mnemonic of R63. -/
def Instr.mnemonic : Instr → String
  | .ldc _ => "LDC"
  | .ldi _ => "LDI"
  | .stc _ => "STC"
  | .sti _ => "STI"
  | .deg _ => "DEG"
  | .coef _ _ => "COEF"
  | .muln => "MULN"
  | .mulb _ => "MULB"
  | .mulc _ => "MULC"
  | .tbld _ => "TBLD"
  | .tblq => "TBLQ"
  | .tblx => "TBLX"

/-- The payload kinds a command can call for (R63, R66). -/
inductive PayloadKind where
  | none
  /-- P-COEF (R67) -/
  | coef
  /-- P-INT (R68) -/
  | int
  /-- P-PAIR (R69) -/
  | pair
deriving DecidableEq, Repr

/-- A command payload, as a value (R45, R66). -/
inductive Payload where
  /-- nothing -/
  | none
  /-- P-COEF: the signed 32-bit LEN and the coefficients, index 0 first (R67) -/
  | coef (len : BitVec 32) (coeffs : List Bool)
  /-- P-INT: one unsigned integer of a stated width (R68: the width must be CAP) -/
  | int (width : Nat) (value : BitVec width)
  /-- P-PAIR: one 32-bit word, i in [31:16], j in [15:0] (R69) -/
  | pair (word : BitVec 32)
deriving DecidableEq, Repr

/-- The kind of a payload. -/
def Payload.kind : Payload → PayloadKind
  | .none => .none
  | .coef _ _ => .coef
  | .int _ _ => .int
  | .pair _ => .pair

/-- What the host gives: a command word paired with a payload value (R60, R66). -/
structure Command where
  word : Word
  payload : Payload
deriving DecidableEq, Repr

end Sys2Proof
end

