-- ==== Sys2Proof/WellFormed.lean ====
section
/-! DEFINITION. Which instructions a word can carry and which payload values can be written down
(30_encoding.md R65, R67, R78). -/

namespace Sys2Proof

/-- The range of a signed 16-bit immediate (R65). -/
def immInRange (imm : Int) : Bool :=
  decide (-32768 ≤ imm) && decide (imm ≤ 32767)

/-- An instruction whose immediate fits its field (R65, R78). -/
def Instr.wf : Instr → Bool
  | .ldc _ => true
  | .ldi _ => true
  | .stc _ => true
  | .sti _ => true
  | .deg _ => true
  | .coef _ idx => immInRange idx
  | .muln => true
  | .mulb m => immInRange m
  | .mulc w => immInRange w
  | .tbld m => immInRange m
  | .tblq => true
  | .tblx => true

/-- P-COEF holds exactly LEN coefficients when LEN >= 0 and none when LEN < 0 (R67). -/
def Payload.wf : Payload → Bool
  | .none => true
  | .coef len coeffs => coeffs.length == len.toInt.toNat
  | .int _ _ => true
  | .pair _ => true

end Sys2Proof
end

