-- ==== Sys2Proof/Decode.lean ====
section
/-! DEFINITION. The decoder, total on every 32-bit word, and the encoder written from the same tables
(30_encoding.md R61 to R65, R72 to R75; 20_memory.md R45). -/

namespace Sys2Proof

/-! ## Fields of a command word (R61) -/

/-- opc, bits [7:0] -/
def opcField (w : Word) : BitVec 8 := w.extractLsb' 0 8

/-- psel, bits [9:8] -/
def pselField (w : Word) : BitVec 2 := w.extractLsb' 8 2

/-- rsv, bits [15:10] -/
def rsvField (w : Word) : BitVec 6 := w.extractLsb' 10 6

/-- imm16, bits [31:16] -/
def immField (w : Word) : Imm16 := w.extractLsb' 16 16

/-- The register `psel` names; 3 names none (R64). -/
def polyRegOf (psel : BitVec 2) : Option PolyReg :=
  match psel.toNat with
  | 0 => some .pa
  | 1 => some .pb
  | 2 => some .pr
  | _ => none

/-- The register `psel` names for a load: 0 or 1 only (R64). -/
def loadRegOf (psel : BitVec 2) : Option LoadReg :=
  match psel.toNat with
  | 0 => some .pa
  | 1 => some .pb
  | _ => none

/-! ## The four formats (R62): each demands that the fields it does not use are 0 -/

/-- Format N: no operand. -/
def formatN (w : Word) (i : Instr) : Option Instr :=
  if immField w = 0 ∧ pselField w = 0 then some i else none

/-- Format R, for the commands that read a register. -/
def formatR (w : Word) (mk : PolyReg → Instr) : Option Instr :=
  if immField w = 0 then (polyRegOf (pselField w)).map mk else none

/-- Format R, for the loads. -/
def formatRLoad (w : Word) (mk : LoadReg → Instr) : Option Instr :=
  if immField w = 0 then (loadRegOf (pselField w)).map mk else none

/-- Format I: a signed immediate (R65). -/
def formatI (w : Word) (mk : Int → Instr) : Option Instr :=
  if pselField w = 0 then some (mk (immField w).toInt) else none

/-- Format RI: a register and a signed immediate (R65). -/
def formatRI (w : Word) (mk : PolyReg → Int → Instr) : Option Instr :=
  (polyRegOf (pselField w)).map fun r => mk r (immField w).toInt

/-- The decoder of R75. `none` is an illegal word (R72, R73). -/
def decode (w : Word) : Option Instr :=
  if rsvField w = 0 then
    match (opcField w).toNat with
    | 0x01 => formatRLoad w .ldc
    | 0x02 => formatRLoad w .ldi
    | 0x03 => formatR w .stc
    | 0x04 => formatR w .sti
    | 0x05 => formatR w .deg
    | 0x06 => formatRI w .coef
    | 0x10 => formatN w .muln
    | 0x11 => formatI w .mulb
    | 0x12 => formatI w .mulc
    | 0x20 => formatI w .tbld
    | 0x21 => formatN w .tblq
    | 0x22 => formatN w .tblx
    | _ => none
  else none

/-- The payload kind each command calls for (R63): the word alone decides it (R66, R74). -/
def Instr.payloadKind : Instr → PayloadKind
  | .ldc _ => .coef
  | .ldi _ => .int
  | .stc _ => .none
  | .sti _ => .none
  | .deg _ => .none
  | .coef _ _ => .none
  | .muln => .none
  | .mulb _ => .none
  | .mulc _ => .none
  | .tbld _ => .none
  | .tblq => .pair
  | .tblx => .none

/-! ## The encoder -/

/-- `psel` of a register (R64). -/
def pselOf : PolyReg → BitVec 2
  | .pa => 0
  | .pb => 1
  | .pr => 2

/-- A word from its fields, `rsv` being 0 (R61). -/
def wordOfFields (imm : Int) (psel : BitVec 2) (opc : BitVec 8) : Word :=
  BitVec.ofInt 16 imm ++ 0#6 ++ psel ++ opc

/-- The word of an instruction (R75): psel and imm are 0 where the format does not use them. -/
def encode : Instr → Word
  | .ldc d => wordOfFields 0 (pselOf d.toPolyReg) 0x01
  | .ldi d => wordOfFields 0 (pselOf d.toPolyReg) 0x02
  | .stc r => wordOfFields 0 (pselOf r) 0x03
  | .sti r => wordOfFields 0 (pselOf r) 0x04
  | .deg r => wordOfFields 0 (pselOf r) 0x05
  | .coef r idx => wordOfFields idx (pselOf r) 0x06
  | .muln => wordOfFields 0 0 0x10
  | .mulb m => wordOfFields m 0 0x11
  | .mulc w => wordOfFields w 0 0x12
  | .tbld m => wordOfFields m 0 0x20
  | .tblq => wordOfFields 0 0 0x21
  | .tblx => wordOfFields 0 0 0x22

/-! ## The match and mask table of R63 -/

/-- One row: a word w selects the command when `w & mask = pattern`, and psel is not 3 where the row says so. -/
structure OpcodeRow where
  mnemonic : String
  mask : Word
  pattern : Word
  pselNot3 : Bool
deriving DecidableEq, Repr

/-- The row selects the word. -/
def OpcodeRow.selects (r : OpcodeRow) (w : Word) : Bool :=
  decide (w &&& r.mask = r.pattern) && (!r.pselNot3 || decide (pselField w ≠ 3))

/-- The twelve rows of R63, in its order. -/
def opcodeRows : List OpcodeRow :=
  [⟨"LDC", 0xFFFFFEFF, 0x00000001, false⟩,
   ⟨"LDI", 0xFFFFFEFF, 0x00000002, false⟩,
   ⟨"STC", 0xFFFFFCFF, 0x00000003, true⟩,
   ⟨"STI", 0xFFFFFCFF, 0x00000004, true⟩,
   ⟨"DEG", 0xFFFFFCFF, 0x00000005, true⟩,
   ⟨"COEF", 0x0000FCFF, 0x00000006, true⟩,
   ⟨"MULN", 0xFFFFFFFF, 0x00000010, false⟩,
   ⟨"MULB", 0x0000FFFF, 0x00000011, false⟩,
   ⟨"MULC", 0x0000FFFF, 0x00000012, false⟩,
   ⟨"TBLD", 0x0000FFFF, 0x00000020, false⟩,
   ⟨"TBLQ", 0xFFFFFFFF, 0x00000021, false⟩,
   ⟨"TBLX", 0xFFFFFFFF, 0x00000022, false⟩]

/-! ## A word cut into bytes, least significant byte first (R45) -/

/-- The four bytes of a word, in the order they are presented. -/
def bytesOfWord (w : Word) : List Byte :=
  [w.extractLsb' 0 8, w.extractLsb' 8 8, w.extractLsb' 16 8, w.extractLsb' 24 8]

/-- The word whose bytes come in this order. -/
def wordOfBytes (b0 b1 b2 b3 : Byte) : Word := b3 ++ b2 ++ b1 ++ b0

/-- Decoding at the head of a byte stream: the instruction and the bytes after its word. -/
def decodeBytes : List Byte → Option (Instr × List Byte)
  | b0 :: b1 :: b2 :: b3 :: rest => (decode (wordOfBytes b0 b1 b2 b3)).map fun i => (i, rest)
  | _ => none

/-- A word of the opcode table, `nbits` bits of it given and the bits above zero, laid out in bytes and decoded. -/
def decodeTableWord (nbits w : Nat) : Option Instr :=
  (decodeBytes (bytesOfWord (BitVec.ofNat 32 (w % 2 ^ nbits)))).map Prod.fst

end Sys2Proof
end

