-- ==== Sys2Proof/Config.lean ====
section
/-! DEFINITION. The three parameters the spec leaves open and the two constants the document fixes
(00_scope.md R6, R7; 92_eei_decisions.md D4, D5, D6). -/

namespace Sys2Proof

/-- One choice of the open sizes, with the constraints of R7 carried by construction, so that a claim about
every state is a claim for every legal CAP, M_MAX and W_MAX. -/
structure Config where
  /-- CAP, the number of coefficients PA or PB holds -/
  cap : Nat
  /-- M_MAX, the largest accepted block size -/
  mMax : Nat
  /-- W_MAX, the largest accepted word size -/
  wMax : Nat
  one_le_cap : 1 ≤ cap := by decide
  cap_le : cap ≤ 2 ^ 30 := by decide
  four_le_mMax : 4 ≤ mMax := by decide
  mMax_le : mMax ≤ 16 := by decide
  le_wMax : 64 ≤ wMax := by decide
  wMax_le : wMax ≤ 32767 := by decide
deriving DecidableEq, Repr

/-- RCAP, the number of coefficients PR holds: not free (R7, R22). -/
def Config.rcap (c : Config) : Nat := 2 * c.cap - 1

/-- The parameters of `State.reset`. DESIGN CHOICE (log entry 1): the smallest sizes R7 names as enough for every
scenario and property of the document's section 8. -/
def Config.reference : Config := { cap := 501, mMax := 8, wMax := 64 }

/-- M_DEFAULT: what the assembler supplies when the operand of MULB is omitted (R6, R80). It is not state. -/
def mDefault : Int := 4

/-- W_DEFAULT: what the assembler supplies when the operand of MULC is omitted (R6, R80). It is not state. -/
def wDefault : Int := 64

end Sys2Proof
end

