-- ==== Sys2Proof/Machine/State.lean ====
section
/-! DEFINITION. The state of the block, its responses, the reasons a step can stop, and reset
(10_state.md R20 to R34; 30_encoding.md R60, R70; 60_exceptions.md R190). -/

namespace Sys2Proof.Machine

/-- The status codes' names (R190). `algorithmMismatch` is reserved for a host-side harness and never produced (R193). -/
inductive Status where
  | ok
  | invalidDegree
  | configurationError
  | algorithmMismatch
  | indexRejected
  | illegalCommand
  | capacityExceeded
  | tableNotBuilt
deriving DecidableEq, Repr

/-- The payload of a response (R70). -/
inductive ResponsePayload where
  /-- nothing -/
  | none
  /-- R-COEF: a 32-bit signed LEN, then the coefficients, index 0 first -/
  | coef (len : BitVec 32) (coeffs : List Bool)
  /-- R-INT: one unsigned integer of the register's width -/
  | int (width : Nat) (value : BitVec width)
  /-- R-DEG: one 32-bit signed integer -/
  | deg (value : BitVec 32)
  /-- R-BIT: one bit -/
  | bit (value : Bool)
deriving DecidableEq, Repr

/-- What the host gets back for one command (R60). -/
structure Response where
  status : Status
  payload : ResponsePayload
deriving DecidableEq, Repr

/-- What the host can do to the block: give a command, reset it between two commands (R220), or reset it while the
command given is in progress (R221). -/
inductive Input where
  | command (c : Command)
  | reset
  | abandoned (c : Command)
deriving DecidableEq, Repr

/-- A table memory: (index, one-bit entry) pairs with strictly rising indices (20_memory.md R40). An index that is not
listed holds no value (10_state.md R30, U3). -/
abbrev Memory := List (Nat × Bool)

/-- A built dot-product table: TBL_M and the entries of TBL that hold a value (R20, R30). -/
structure Table where
  /-- TBL_M, 5 bits -/
  m : BitVec 5
  /-- the entries of TBL -/
  cells : Memory
deriving DecidableEq, Repr

/-- The machine. `pa`, `pb`, `pr` and `table` are the spec's state (R20): TBL_VALID is `table.isSome`, and TBL_M and TBL
hold a value exactly while it is 1 (R30, R124, U3). The other fields are the model's own (log entries 1, 2, 3): the
parameters, what the host has still to give, the payload of the command in progress, the responses given. -/
structure State where
  /-- CAP, M_MAX, W_MAX (R7); no step changes it -/
  cfg : Config
  /-- PA, bit i the coefficient of x^i (R21) -/
  pa : BitVec cfg.cap
  /-- PB -/
  pb : BitVec cfg.cap
  /-- PR, RCAP bits (R22) -/
  pr : BitVec cfg.rcap
  /-- the dot-product table, when one is built (R29, R30) -/
  table : Option Table
  /-- what the host has still to give, oldest first (R27, R226) -/
  inputs : List Input
  /-- the payload of the command in progress (R66); none between commands -/
  payload : Payload
  /-- the responses given, oldest first (R60) -/
  responses : List Response
deriving DecidableEq, Repr

/-- Why the machine stops. -/
inductive Fault where
  /-- Raised by MULB and TBLQ when they read a table location that holds no value (20_memory.md R41, U3: "must not return
  a value"). Safe: no state whose table meets the invariant of R31 raises it. -/
  | unmappedTableRead (idx : Nat)
deriving DecidableEq, Repr

/-- Why the machine gives an instruction no meaning. -/
inductive Refusal where
  /-- Raised by `exec` for an instruction not modelled yet. Safe. No arm raises it. -/
  | notModelled (mnemonic : String)
  /-- Raised by every instruction, and for an illegal word, when the payload given is not the one the word calls for:
  "ill-formed: it is not a command of the block, and the model refuses it at its boundary" (30_encoding.md R66, D35).
  Safe. -/
  | payloadIllFormed
deriving DecidableEq, Repr

/-- The outcome of a meaning or of a step. -/
abbrev Result := Host.Outcome State Fault Refusal

/-- The state right after reset of a block with the parameters `c` (R34). -/
def State.resetOf (c : Config) : State where
  cfg := c
  pa := 0
  pb := 0
  pr := 0
  table := none
  inputs := []
  payload := .none
  responses := []

/-- The state right after reset, for the reference parameters (log entry 1). -/
def State.reset : State := State.resetOf Config.reference

end Sys2Proof.Machine
end

