-- ==== Sys2Proof/Machine/Flags.lean ====
section
/-! DEFINITION. The control state of the block. There are no condition codes (10_state.md R28): the only flag is
TBL_VALID, and beside it stands TBL_M (R29). The status of a response is an output, with the codes of R190. -/

namespace Sys2Proof.Machine

/-- TBL_VALID: 1 when the dot-product table is built (R29). -/
def State.tblValid (s : State) : Bool := s.table.isSome

/-- TBL_M, which holds a value only while TBL_VALID = 1 (R29, R34). -/
def State.tblM (s : State) : Option (BitVec 5) := s.table.map Table.m

/-- The 8-bit status code (R190). -/
def Status.code : Status → BitVec 8
  | .ok => 0
  | .invalidDegree => 1
  | .configurationError => 2
  | .algorithmMismatch => 3
  | .indexRejected => 4
  | .illegalCommand => 5
  | .capacityExceeded => 6
  | .tableNotBuilt => 7

end Sys2Proof.Machine
end

