-- ==== Sys2Proof/Machine/Poly.lean ====
section
/-! DEFINITION. GF(2) polynomials as integers: bit i is the coefficient of x^i (00_scope.md R9 to R15;
40_representation.md R91, R92). -/

namespace Sys2Proof.Machine

/-- The integer whose bit k is `f k` for every k < n, and 0 above. -/
def natOfBits : Nat → (Nat → Bool) → Nat
  | 0, _ => 0
  | n + 1, f => natOfBits n f + (f n).toNat * 2 ^ n

/-- The XOR of `f 0`, ..., `f (n-1)` (R10). -/
def xorSum : Nat → (Nat → Bool) → Bool
  | 0, _ => false
  | n + 1, f => xorSum n f ^^ f n

/-- How many of `f 0`, ..., `f (n-1)` are 1. -/
def countOnes : Nat → (Nat → Bool) → Nat
  | 0, _ => 0
  | n + 1, f => countOnes n f + (f n).toNat

/-- deg(x): the index of the highest bit that is 1, and -1 for 0 (R12). -/
def deg (x : Nat) : Int := if x = 0 then -1 else (Nat.log2 x : Int)

/-- len(x) = deg(x) + 1 (R12). -/
def len (x : Nat) : Nat := (deg x + 1).toNat

/-- popcount(x) (R11). -/
def popcount (x : Nat) : Nat := countOnes (len x) x.testBit

/-- parity(x) = popcount(x) mod 2 (R11). -/
def parity (x : Nat) : Bool := popcount x % 2 == 1

/-- dot_m(i, j): the GF(2) inner product of two bit vectors (R13). -/
def dot (i j : Nat) : Bool := parity (i &&& j)

/-- start_i(k) = max(0, k - deg(b)) (R15). -/
def startI (db k : Nat) : Nat := k - db

/-- end_i(k) = min(k, deg(a)) (R15). -/
def endI (da k : Nat) : Nat := min k da

/-- Coefficient k of the reference product: the XOR over all pairs (i, j) with i + j = k, 0 <= i <= deg(a),
0 <= j <= deg(b), of a[i] & b[j] (R14). -/
def clmulBit (a b k : Nat) : Bool :=
  xorSum (len a) fun i => xorSum (len b) fun j => decide (i + j = k) && (a.testBit i && b.testBit j)

/-- The reference product (R14): a definition, not a command. It is 0 when an operand is 0, and no coefficient
exists above deg(a) + deg(b). -/
def clmul (a b : Nat) : Nat := natOfBits (len a + len b - 1) (clmulBit a b)

/-- to_integer(C): the sum of C[i] * 2^i (R91). -/
def toInteger : List Bool → Nat
  | [] => 0
  | c :: cs => c.toNat + 2 * toInteger cs

/-- to_coefficients(x): [x[0], ..., x[deg(x)]], and [] for 0 (R92). -/
def toCoefficients (x : Nat) : List Bool := (List.range (len x)).map x.testBit

end Sys2Proof.Machine
end

