-- ==== Sys2Proof/Machine/Ops.lean ====
section
/-! DEFINITION. The operations every meaning is written over: polynomial registers, the table memory, responding,
raising a status, accepting a command, reset (00_scope.md R16; 20_memory.md R41; 60_exceptions.md R200). -/

namespace Sys2Proof.Machine

/-! ## Polynomial registers -/

/-- The width of a polynomial register: CAP or RCAP (R21, R22). -/
def regWidth (c : Config) : PolyReg → Nat
  | .pa => c.cap
  | .pb => c.cap
  | .pr => c.rcap

/-- P[r], read as an unsigned integer (R16). -/
def State.poly (s : State) : PolyReg → Nat
  | .pa => s.pa.toNat
  | .pb => s.pb.toNat
  | .pr => s.pr.toNat

/-- P[d] <- v, kept to CAP bits, for a register a load may write (R16, R94). -/
def State.setOperand (s : State) (d : LoadReg) (v : Nat) : State :=
  match d with
  | .pa => { s with pa := BitVec.ofNat s.cfg.cap v }
  | .pb => { s with pb := BitVec.ofNat s.cfg.cap v }

/-- P[R] <- v, kept to RCAP bits (R16, R22: no product is wider). -/
def State.setProduct (s : State) (v : Nat) : State :=
  { s with pr := BitVec.ofNat s.cfg.rcap v }

/-! ## The table memory -/

/-- The canonical form: strictly rising indices. Every listed entry differs from what an unlisted index reads as, which
is no value (R30). -/
abbrev Memory.wf (mem : Memory) : Prop := mem.Pairwise fun x y => x.1 < y.1

/-- The entry at an index, if it holds a value. -/
def Memory.read : Memory → Nat → Option Bool
  | [], _ => none
  | (a, v) :: rest, idx => if a = idx then some v else Memory.read rest idx

/-- TBL[idx] <- v (R41): only a table build performs it. -/
def Memory.write : Memory → Nat → Bool → Memory
  | [], idx, v => [(idx, v)]
  | (a, u) :: rest, idx, v =>
    if idx < a then (idx, v) :: (a, u) :: rest
    else if idx = a then (idx, v) :: rest
    else (a, u) :: Memory.write rest idx v

/-- The index of the entry for the pair (i, j) (R42). -/
def tableIndex (m i j : Nat) : Nat := i * 2 ^ m + j

/-- The entries of row i: `for j in 0..2^m-1: TBL[i * 2^m + j] <- parity(i & j)` (R122). -/
def tableRow (m i : Nat) : Memory := (List.range (2 ^ m)).map fun j => (tableIndex m i j, dot i j)

/-- The entries of the table for block size m, row after row (R122). It is what the writes of R122 leave in an empty
memory, in whatever order they are done (R49; `Obligations.TableWriteOrderIsFree`). -/
def builtCells (m : Nat) : Memory := (List.range (2 ^ m)).flatMap (tableRow m)

/-- The table for block size m, built anew: any table before it is dropped (R122, D26). -/
def builtTable (m : Nat) : Table where
  m := BitVec.ofNat 5 m
  cells := builtCells m

/-- build_table(m): TBL, TBL_M and TBL_VALID (R122). -/
def State.buildTable (s : State) (m : Nat) : State := { s with table := some (builtTable m) }

/-- TBL_VALID <- 0: the entries and TBL_M then hold no value (R124). -/
def State.dropTable (s : State) : State := { s with table := none }

/-- TBL[idx] of a valid table: defined only below 2^(2*TBL_M), and a location that holds no value gives none (R41). -/
def Table.read (t : Table) (idx : Nat) : Except Fault Bool :=
  if idx < 2 ^ (2 * t.m.toNat) then
    match t.cells.read idx with
    | some v => .ok v
    | none => .error (.unmappedTableRead idx)
  else .error (.unmappedTableRead idx)

/-! ## Ending a command -/

/-- The command ends with the response `r`; the block is then ready for the next command (R60, R200). -/
def State.finish (s : State) (r : Response) : State :=
  { s with payload := .none, responses := s.responses ++ [r] }

/-- `respond(kind, value)`: status OK and the payload (R16). -/
def respond (p : ResponsePayload) (s : State) : Result := .next (s.finish ⟨.ok, p⟩)

/-- `raise S`, the one way an error is taken: the command ends at once, no architectural state is written, and the
response is the status code with no payload (R200). Nothing is entered, so there is no return (R202). -/
def raise (st : Status) (s : State) : Result := .next (s.finish ⟨st, .none⟩)

/-- An illegal word is answered with IllegalCommand (R72, R197). -/
def illegalCommand (s : State) : Result := raise .illegalCommand s

/-! ## What the host does -/

/-- The block takes the command given: what is left to give, and the payload of the command now in progress (R226). -/
def State.accept (s : State) (rest : List Input) (p : Payload) : State :=
  { s with inputs := rest, payload := p }

/-- The reset state (R34, R220). What the host has still to give and the responses it has got are the host's, and stay. -/
def State.applyReset (s : State) (rest : List Input) : State :=
  { State.resetOf s.cfg with inputs := rest, responses := s.responses }

/-- A reset during a command: no response is given for it and the state is the reset state, which equals the outcome of
a reset after it with the response discarded (R221). -/
def State.abandon (s : State) (rest : List Input) (done : Result) : Result :=
  match done with
  | .next t => .next { t.applyReset rest with responses := s.responses }
  | .fault f => .fault f
  | .refused r => .refused r

/-- The payload of zeros that a word calls for: LEN 0 with no coefficient, the CAP-bit value 0, the pair (0, 0), or
nothing (R63). -/
def zeroPayload (c : Config) (w : Word) : Payload :=
  match (decode w).map Instr.payloadKind with
  | some .coef => .coef 0 []
  | some .int => .int c.cap 0
  | some .pair => .pair 0
  | some .none => .none
  | none => .none

end Sys2Proof.Machine
end

