-- ==== Sys2Proof/Machine/Operands.lean ====
section
/-! DEFINITION. The operand forms: the payload a command takes, and the checks on an immediate that two commands
share (30_encoding.md R65 to R69; 42_block_table.md R121; 43_chunked.md R151). A payload of another kind, or one that
cannot be written down, is not a command of the block: the model refuses it at its boundary (R66, D35). -/

namespace Sys2Proof.Machine

/-- A command that takes no payload. -/
def withNoPayload (s : State) (k : Result) : Result :=
  match s.payload with
  | .none => k
  | .coef _ _ => .refused .payloadIllFormed
  | .int _ _ => .refused .payloadIllFormed
  | .pair _ => .refused .payloadIllFormed

/-- A command that takes P-COEF: LEN as a signed integer, and the coefficients (R67). -/
def withCoef (s : State) (k : Int → List Bool → Result) : Result :=
  match s.payload with
  | .none => .refused .payloadIllFormed
  | .coef len coeffs =>
    if (Payload.coef len coeffs).wf then k len.toInt coeffs else .refused .payloadIllFormed
  | .int _ _ => .refused .payloadIllFormed
  | .pair _ => .refused .payloadIllFormed

/-- A command that takes P-INT: one unsigned integer of exactly CAP bits (R68). -/
def withInt (s : State) (k : Nat → Result) : Result :=
  match s.payload with
  | .none => .refused .payloadIllFormed
  | .coef _ _ => .refused .payloadIllFormed
  | .int width value => if width = s.cfg.cap then k value.toNat else .refused .payloadIllFormed
  | .pair _ => .refused .payloadIllFormed

/-- A command that takes P-PAIR: i in bits [31:16], j in bits [15:0], both unsigned (R69). -/
def withPair (s : State) (k : Nat → Nat → Result) : Result :=
  match s.payload with
  | .none => .refused .payloadIllFormed
  | .coef _ _ => .refused .payloadIllFormed
  | .int _ _ => .refused .payloadIllFormed
  | .pair word => k (word.extractLsb' 16 16).toNat (word.extractLsb' 0 16).toNat

/-- The configuration check on a block size: m <= 0 or m > M_MAX (R121). -/
def badBlockSize (c : Config) (m : Int) : Bool := decide (m ≤ 0) || decide (m > (c.mMax : Int))

/-- The configuration check on a word size: w <= 0 or w > W_MAX (R151). -/
def badWordSize (c : Config) (w : Int) : Bool := decide (w ≤ 0) || decide (w > (c.wMax : Int))

/-- "callers must short-circuit multiplication by zero": an operand is zero (R111, R131, R155). -/
def State.zeroOperand (s : State) : Bool := s.poly .pa == 0 || s.poly .pb == 0

end Sys2Proof.Machine
end

