-- ==== Sys2Proof/Machine/BlockTable.lean ====
section
/-! DEFINITION. The dot-product table commands TBLD, TBLQ, TBLX and the block-table multiplier MULB
(42_block_table.md R121 to R134). -/

namespace Sys2Proof.Machine

/-! ## The table commands -/

/-- TBLD m (R122). -/
def execTbld (m : Int) (s : State) : Result :=
  withNoPayload s
    (if badBlockSize s.cfg m then raise .configurationError s
     else respond .none (s.buildTable m.toNat))

/-- TBLQ (R123): TableNotBuilt is tested before IndexRejected. -/
def execTblq (s : State) : Result :=
  withPair s fun i j =>
    match s.table with
    | none => raise .tableNotBuilt s
    | some t =>
      if 2 ^ t.m.toNat ≤ i ∨ 2 ^ t.m.toNat ≤ j then raise .indexRejected s
      else
        match t.read (tableIndex t.m.toNat i j) with
        | .ok v => respond (.bit v) s
        | .error f => .fault f

/-- TBLX (R124): dropping when no table exists is OK and changes nothing. -/
def execTblx (s : State) : Result := withNoPayload s (respond .none s.dropTable)

/-! ## The convolution phase -/

/-- The blocks of m positions from position `s` up to `hi`, each with its length L = min(m, hi - s + 1) (R126). `fuel`
bounds the number of blocks. -/
def blocksFrom (m hi : Nat) : Nat → Nat → List (Nat × Nat)
  | 0, _ => []
  | fuel + 1, s =>
    if s ≤ hi then (s, min m (hi - s + 1)) :: blocksFrom m hi fuel (s + min m (hi - s + 1)) else []

/-- The block partition of the range lo..hi (R126), anchored at lo (D22). -/
def blocks (m lo hi : Nat) : List (Nat × Nat) := blocksFrom m hi (hi - lo + 1) lo

/-- ia: bit t is a[s+t] (R127). -/
def blockIndexA (m a s : Nat) : Nat := natOfBits m fun t => a.testBit (s + t)

/-- ib: bit t is b[k-s-t] (R127). -/
def blockIndexB (m b k s : Nat) : Nat := natOfBits m fun t => b.testBit (k - s - t)

/-- The contribution of one block (s, L): looked up when the block is full (R128), else the direct AND and parity of its
positions (R129). -/
def blockContribution (t : Table) (m a b k : Nat) (blk : Nat × Nat) : Except Fault Bool :=
  if blk.2 = m then t.read (tableIndex m (blockIndexA m a blk.1) (blockIndexB m b k blk.1))
  else .ok (xorSum blk.2 fun p => a.testBit (blk.1 + p) && b.testBit (k - blk.1 - p))

/-- "Block contributions are XORed together to form coefficient k", block by block onto `c` (R130). -/
def xorBlocks (contribution : Nat × Nat → Except Fault Bool) : List (Nat × Nat) → Bool → Except Fault Bool
  | [], c => .ok c
  | blk :: rest, c =>
    match contribution blk with
    | .ok v => xorBlocks contribution rest (c ^^ v)
    | .error f => .error f

/-- Coefficient k of MULB, for operands of degree da and db (R130). -/
def blockCoefficient (t : Table) (m a b da db k : Nat) : Except Fault Bool :=
  xorBlocks (blockContribution t m a b k) (blocks m (startI db k) (endI da k)) false

/-- The coefficients 0 to n-1, k upward (R130, D24). -/
def blockCoefficients (t : Table) (m a b da db : Nat) : Nat → Except Fault Nat
  | 0 => .ok 0
  | k + 1 =>
    match blockCoefficients t m a b da db k with
    | .error f => .error f
    | .ok r =>
      match blockCoefficient t m a b da db k with
      | .error f => .error f
      | .ok c => .ok (r + c.toNat * 2 ^ k)

/-- ensure_table(m): the cached table when it is valid for m, else a new one (R125). -/
def State.ensuredTable (s : State) (m : Nat) : Table :=
  match s.table with
  | some t => if t.m.toNat = m then t else builtTable m
  | none => builtTable m

/-- MULB m (R130): the check precedes the zero short-circuit (R121), which leaves the table alone (R131). -/
def execMulb (m : Int) (s : State) : Result :=
  withNoPayload s
    (if badBlockSize s.cfg m then raise .configurationError s
     else if s.zeroOperand then respond .none (s.setProduct 0)
     else
      match blockCoefficients (s.ensuredTable m.toNat) m.toNat (s.poly .pa) (s.poly .pb)
          (deg (s.poly .pa)).toNat (deg (s.poly .pb)).toNat
          ((deg (s.poly .pa)).toNat + (deg (s.poly .pb)).toNat + 1) with
      | .error f => .fault f
      | .ok r => respond .none ({ s with table := some (s.ensuredTable m.toNat) }.setProduct r))

end Sys2Proof.Machine
end

