-- ==== Sys2Proof/Machine/Chunked.lean ====
section
/-! DEFINITION. The chunked-compression multiplier MULC (43_chunked.md R150 to R159). -/

namespace Sys2Proof.Machine

/-- The chunks of w positions from position `cs` up to `hi`, each with its last position ce = min(cs + w - 1, hi)
(R152). `fuel` bounds the number of chunks. -/
def chunksFrom (w hi : Nat) : Nat → Nat → List (Nat × Nat)
  | 0, _ => []
  | fuel + 1, cs => if cs ≤ hi then (cs, min (cs + w - 1) hi) :: chunksFrom w hi fuel (cs + w) else []

/-- The chunk partition of the range lo..hi (R152), anchored at lo (D23). -/
def chunks (w lo hi : Nat) : List (Nat × Nat) := chunksFrom w hi (hi - lo + 1) lo

/-- The chunk word of cs..ce: bit i - cs is a[i] & b[k-i], and the bits above a short chunk are 0 (R153). It is held as an
integer below 2^w (R158). -/
def chunkWord (a b k : Nat) (c : Nat × Nat) : Nat :=
  natOfBits (c.2 - c.1 + 1) fun t => a.testBit (c.1 + t) && b.testBit (k - (c.1 + t))

/-- "XOR all chunk words together into a running accumulator" (R154). -/
def xorChunks (word : Nat × Nat → Nat) : List (Nat × Nat) → Nat → Nat
  | [], acc => acc
  | c :: rest, acc => xorChunks word rest (acc ^^^ word c)

/-- The accumulator for coefficient k, for operands of degree da and db (R150). -/
def chunkAccumulator (w a b da db k : Nat) : Nat :=
  xorChunks (chunkWord a b k) (chunks w (startI db k) (endI da k)) 0

/-- The product by chunk words: one parity per coefficient (R154, C6). -/
def chunkedProduct (w a b da db : Nat) : Nat :=
  natOfBits (da + db + 1) fun k => parity (chunkAccumulator w a b da db k)

/-- MULC w (R150): the check precedes the zero short-circuit (R151); the table state is neither read nor written. -/
def execMulc (w : Int) (s : State) : Result :=
  withNoPayload s
    (if badWordSize s.cfg w then raise .configurationError s
     else if s.zeroOperand then respond .none (s.setProduct 0)
     else
      respond .none
        (s.setProduct
          (chunkedProduct w.toNat (s.poly .pa) (s.poly .pb) (deg (s.poly .pa)).toNat (deg (s.poly .pb)).toNat)))

end Sys2Proof.Machine
end

