-- ==== Sys2Proof/Machine/Representation.lean ====
section
/-! DEFINITION. The representation commands LDC, LDI, STC, STI, DEG, COEF (40_representation.md R94 to R99). -/

namespace Sys2Proof.Machine

/-- LDC Pd (R94): InvalidDegree is tested before CapacityExceeded, and the test is on LEN alone. -/
def execLdc (d : LoadReg) (s : State) : Result :=
  withCoef s fun length coeffs =>
    if length < 0 then raise .invalidDegree s
    else if length > (s.cfg.cap : Int) then raise .capacityExceeded s
    else respond .none (s.setOperand d (toInteger coeffs))

/-- LDI Pd (R95). -/
def execLdi (d : LoadReg) (s : State) : Result :=
  withInt s fun v => respond .none (s.setOperand d v)

/-- STC Ps (R96). -/
def execStc (r : PolyReg) (s : State) : Result :=
  withNoPayload s (respond (.coef (BitVec.ofNat 32 (len (s.poly r))) (toCoefficients (s.poly r))) s)

/-- STI Ps (R97): CAP bits for PA, PB; RCAP bits for PR. -/
def execSti (r : PolyReg) (s : State) : Result :=
  withNoPayload s (respond (.int (regWidth s.cfg r) (BitVec.ofNat (regWidth s.cfg r) (s.poly r))) s)

/-- DEG Ps (R98): -1 is 0xFFFFFFFF. -/
def execDeg (r : PolyReg) (s : State) : Result :=
  withNoPayload s (respond (.deg (BitVec.ofInt 32 (deg (s.poly r)))) s)

/-- COEF Ps, idx (R99): 0 at or above the register's width. -/
def execCoef (r : PolyReg) (idx : Int) (s : State) : Result :=
  withNoPayload s
    (if idx < 0 then raise .indexRejected s
     else respond (.bit ((s.poly r).testBit idx.toNat)) s)

end Sys2Proof.Machine
end

