-- ==== Sys2Proof/Machine/Schoolbook.lean ====
section
/-! DEFINITION. The schoolbook multiplier MULN (41_schoolbook.md R110 to R114). -/

namespace Sys2Proof.Machine

/-- The working registers of MULN: `sa` and `acc` of RCAP bits, `sb` of CAP bits (R110, R113). They exist only inside
the command (R32). -/
structure ShiftRegs (rcap cap : Nat) where
  sa : BitVec rcap
  sb : BitVec cap
  acc : BitVec rcap
deriving DecidableEq, Repr

/-- One iteration: "if the lowest bit of b is set, XOR the current (left-shifted) a into the accumulator; left-shift a by
one, right-shift b by one". -/
def shiftStep {rcap cap : Nat} (x : ShiftRegs rcap cap) : ShiftRegs rcap cap where
  sa := x.sa <<< 1
  sb := x.sb >>> 1
  acc := if x.sb.getLsbD 0 then x.acc ^^^ x.sa else x.acc

/-- "iterate while b is non-zero", at most `fuel` times: `sb` has CAP bits, so CAP iterations always suffice (R112). -/
def shiftLoop {rcap cap : Nat} : Nat → ShiftRegs rcap cap → ShiftRegs rcap cap
  | 0, x => x
  | fuel + 1, x => if x.sb = 0 then x else shiftLoop fuel (shiftStep x)

/-- The working registers at the start: sa = zext(PA), sb = PB, acc = 0 (R110). -/
def State.shiftStart (s : State) : ShiftRegs s.cfg.rcap s.cfg.cap where
  sa := s.pa.setWidth s.cfg.rcap
  sb := s.pb
  acc := 0

/-- MULN (R110): it never fails. -/
def execMuln (s : State) : Result :=
  withNoPayload s
    (if s.zeroOperand then respond .none (s.setProduct 0)
     else respond .none (s.setProduct (shiftLoop s.cfg.cap s.shiftStart).acc.toNat))

end Sys2Proof.Machine
end

