-- ==== Sys2Proof/Machine/Dispatch.lean ====
section
/-! DEFINITION. One arm per command (30_encoding.md R63). -/

namespace Sys2Proof.Machine

def exec (i : Instr) (s : State) : Host.Outcome State Fault Refusal :=
  match i with
  | .ldc d => Sys2Proof.Machine.execLdc d s
  | .ldi d => Sys2Proof.Machine.execLdi d s
  | .stc r => Sys2Proof.Machine.execStc r s
  | .sti r => Sys2Proof.Machine.execSti r s
  | .deg r => Sys2Proof.Machine.execDeg r s
  | .coef r idx => Sys2Proof.Machine.execCoef r idx s
  | .muln => Sys2Proof.Machine.execMuln s
  | .mulb m => Sys2Proof.Machine.execMulb m s
  | .mulc w => Sys2Proof.Machine.execMulc w s
  | .tbld m => Sys2Proof.Machine.execTbld m s
  | .tblq => Sys2Proof.Machine.execTblq s
  | .tblx => Sys2Proof.Machine.execTblx s

end Sys2Proof.Machine
end

