-- ==== Sys2Proof/Machine/Step.lean ====
section
/-! DEFINITION. One step: the block takes the next thing the host gives and runs it to its response
(20_memory.md R48; 60_exceptions.md R201, R212; 70_reset_and_hazards.md R220, R221, R226). -/

namespace Sys2Proof.Machine

/-- A word run on an accepted payload: the decoder first (R201), then the command. The block takes no payload for an
illegal word, so such a pair is refused at the boundary (R66, R197). -/
def runWord (w : Word) (s : State) : Host.Outcome State Fault Refusal :=
  match decode w with
  | none => withNoPayload s (illegalCommand s)
  | some i => exec i s

/-- With nothing given, the block is idle and holds its state (R212). -/
def step (s : State) : Host.Outcome State Fault Refusal :=
  match s.inputs with
  | [] => .next s
  | .command c :: rest => runWord c.word (s.accept rest c.payload)
  | .reset :: rest => .next (s.applyReset rest)
  | .abandoned c :: rest => s.abandon rest (runWord c.word (s.accept rest c.payload))

/-- The machine with these inputs given by the host, after those already given. -/
def State.give (s : State) (more : List Input) : State := { s with inputs := s.inputs ++ more }

/-- The machine whose next command is the word `w`, with the payload of zeros its opcode calls for (log entry 8). -/
def State.withFetchWord (s : State) (nbits w : Nat) : State :=
  { s with
    inputs :=
      .command
        { word := BitVec.ofNat 32 (w % 2 ^ nbits),
          payload := zeroPayload s.cfg (BitVec.ofNat 32 (w % 2 ^ nbits)) } :: s.inputs }

end Sys2Proof.Machine
end

