-- ==== Sys2Proof/Machine/Assembler.lean ====
section
/-! DEFINITION. The assembler: from the text of a line to the line, and from a line to the command it stands for
(30_encoding.md R78, R80; 00_scope.md R6, R17). What R78 leaves open of the spelling is log entry 9. -/

namespace Sys2Proof.Machine

/-- A line of R78. An omitted operand of MULB or MULC is `none` (R80). -/
inductive AsmLine where
  /-- LDC Pd, [c0,c1,...,cn] -/
  | ldc (d : LoadReg) (coeffs : List Bool)
  /-- LDC Pd, len=L, [c0,...] -/
  | ldcRaw (d : LoadReg) (length : Int) (coeffs : List Bool)
  | ldi (d : LoadReg) (value : Nat)
  | stc (r : PolyReg)
  | sti (r : PolyReg)
  | deg (r : PolyReg)
  | coef (r : PolyReg) (idx : Int)
  | muln
  | mulb (m : Option Int)
  | mulc (w : Option Int)
  | tbld (m : Int)
  | tblq (i j : Nat)
  | tblx
deriving DecidableEq, Repr

/-- The instruction of a line, with the defaults 4 and 64 supplied for an omitted operand (R6, R80). -/
def AsmLine.instr : AsmLine → Instr
  | .ldc d _ => .ldc d
  | .ldcRaw d _ _ => .ldc d
  | .ldi d _ => .ldi d
  | .stc r => .stc r
  | .sti r => .sti r
  | .deg r => .deg r
  | .coef r idx => .coef r idx
  | .muln => .muln
  | .mulb m => .mulb (m.getD mDefault)
  | .mulc w => .mulc (w.getD wDefault)
  | .tbld m => .tbld m
  | .tblq _ _ => .tblq
  | .tblx => .tblx

/-- P-COEF with a stated LEN, when LEN fits 32 signed bits and the list has the length LEN demands (R67). -/
def coefPayload (length : Int) (coeffs : List Bool) : Option Payload :=
  if -2147483648 ≤ length ∧ length ≤ 2147483647 ∧ coeffs.length = length.toNat then
    some (.coef (BitVec.ofInt 32 length) coeffs)
  else none

/-- The payload of a line; `none` where an integer is out of the range R78 states: "an assembler error, not a command". -/
def AsmLine.payload (c : Config) : AsmLine → Option Payload
  | .ldc _ coeffs => coefPayload coeffs.length coeffs
  | .ldcRaw _ length coeffs => coefPayload length coeffs
  | .ldi _ v => if v < 2 ^ c.cap then some (.int c.cap (BitVec.ofNat c.cap v)) else none
  | .stc _ => some .none
  | .sti _ => some .none
  | .deg _ => some .none
  | .coef _ _ => some .none
  | .muln => some .none
  | .mulb _ => some .none
  | .mulc _ => some .none
  | .tbld _ => some .none
  | .tblq i j =>
    if i ≤ 65535 ∧ j ≤ 65535 then some (.pair (BitVec.ofNat 16 i ++ BitVec.ofNat 16 j)) else none
  | .tblx => some .none

/-- The command of a line, or `none` for an assembler error (R78). -/
def assemble (c : Config) (line : AsmLine) : Option Command :=
  if line.instr.wf then (line.payload c).map fun p => { word := encode line.instr, payload := p } else none

/-! ## The text of a line (R78) -/

/-- The pieces of a line. -/
inductive AsmToken where
  | word (w : List Char)
  | comma
  | openList
  | closeList
  | equals
deriving DecidableEq, Repr

/-- The pieces of a text; `cur` is the word being read. A blank ends a word, and `;` starts a comment. -/
def lexLine : List Char → List Char → List AsmToken
  | [], cur => if cur.isEmpty then [] else [.word cur]
  | ch :: rest, cur =>
    let before : List AsmToken := if cur.isEmpty then [] else [.word cur]
    if ch = ';' then before
    else if ch = ' ' ∨ ch = '\t' then before ++ lexLine rest []
    else if ch = ',' then before ++ .comma :: lexLine rest []
    else if ch = '[' then before ++ .openList :: lexLine rest []
    else if ch = ']' then before ++ .closeList :: lexLine rest []
    else if ch = '=' then before ++ .equals :: lexLine rest []
    else lexLine rest (cur ++ [ch])

/-- The value of a digit in a base up to 16. -/
def digitValue (base : Nat) (ch : Char) : Option Nat :=
  let n := ch.toNat
  let v :=
    if 48 ≤ n ∧ n ≤ 57 then n - 48
    else if 97 ≤ n ∧ n ≤ 102 then n - 87
    else if 65 ≤ n ∧ n ≤ 70 then n - 55
    else 16
  if v < base then some v else none

/-- The number a list of digits writes, most significant first (R17). -/
def digitsValue (base : Nat) : List Char → Nat → Option Nat
  | [], acc => some acc
  | ch :: rest, acc => (digitValue base ch).bind fun v => digitsValue base rest (acc * base + v)

/-- An unsigned integer "in decimal, 0x hex or 0b binary". -/
def readNat (w : List Char) : Option Nat :=
  match w with
  | '0' :: 'x' :: ds => if ds.isEmpty then none else digitsValue 16 ds 0
  | '0' :: 'b' :: ds => if ds.isEmpty then none else digitsValue 2 ds 0
  | ds => if ds.isEmpty then none else digitsValue 10 ds 0

/-- A signed integer. -/
def readInt (w : List Char) : Option Int :=
  match w with
  | '-' :: ds => (readNat ds).map fun n => -(n : Int)
  | ds => (readNat ds).map fun n => (n : Int)

/-- A register a command may read. -/
def readPolyReg (w : List Char) : Option PolyReg :=
  if w = ['P', 'A'] then some .pa
  else if w = ['P', 'B'] then some .pb
  else if w = ['P', 'R'] then some .pr
  else none

/-- A register a load may write: "Pd is PA or PB". -/
def readLoadReg (w : List Char) : Option LoadReg :=
  if w = ['P', 'A'] then some .pa else if w = ['P', 'B'] then some .pb else none

/-- "each c is 0 or 1" -/
def readCoefficient (w : List Char) : Option Bool :=
  if w = ['0'] then some false else if w = ['1'] then some true else none

/-- The coefficients of a list after its first one, up to the closing bracket. -/
def readMoreCoefficients : List AsmToken → Option (List Bool)
  | [.closeList] => some []
  | .comma :: .word w :: rest =>
    (readCoefficient w).bind fun b => (readMoreCoefficients rest).map fun bs => b :: bs
  | _ => none

/-- A bracketed list, constant term first (R17). -/
def readCoefficients : List AsmToken → Option (List Bool)
  | [.openList, .closeList] => some []
  | .openList :: .word w :: rest =>
    (readCoefficient w).bind fun b => (readMoreCoefficients rest).map fun bs => b :: bs
  | _ => none

/-- The operands of LDC after its register: a list, or `len=L` and a list. -/
def readLdc (d : LoadReg) (ts : List AsmToken) : Option AsmLine :=
  match ts with
  | .word w :: .equals :: .word n :: .comma :: rest =>
    if w = ['l', 'e', 'n'] then
      (readInt n).bind fun length => (readCoefficients rest).map fun cs => .ldcRaw d length cs
    else none
  | rest => (readCoefficients rest).map fun cs => .ldc d cs

/-- The line a mnemonic and its operands stand for. -/
def readLine (mnemonic : String) (ts : List AsmToken) : Option AsmLine :=
  match mnemonic, ts with
  | "MULN", [] => some .muln
  | "MULB", [] => some (.mulb none)
  | "MULC", [] => some (.mulc none)
  | "TBLX", [] => some .tblx
  | "STC", [.word r] => (readPolyReg r).map .stc
  | "STI", [.word r] => (readPolyReg r).map .sti
  | "DEG", [.word r] => (readPolyReg r).map .deg
  | "MULB", [.word m] => (readInt m).map fun m => .mulb (some m)
  | "MULC", [.word w] => (readInt w).map fun w => .mulc (some w)
  | "TBLD", [.word m] => (readInt m).map .tbld
  | "LDI", [.word d, .comma, .word v] => (readLoadReg d).bind fun d => (readNat v).map fun v => .ldi d v
  | "COEF", [.word r, .comma, .word i] => (readPolyReg r).bind fun r => (readInt i).map fun i => .coef r i
  | "TBLQ", [.word i, .comma, .word j] => (readNat i).bind fun i => (readNat j).map fun j => .tblq i j
  | "LDC", .word d :: .comma :: rest => (readLoadReg d).bind fun d => readLdc d rest
  | _, _ => none

/-- The command of a text line; `none` for an assembler error and for a line without a command. -/
def assembleText (c : Config) (text : String) : Option Command :=
  match lexLine text.toList [] with
  | .word m :: rest => (readLine (String.ofList m) rest).bind (assemble c)
  | _ => none

/-- The commands of a text, "one command per line": a line that is blank or only a comment gives none, and one assembler
error spoils the whole. -/
def assembleLines (c : Config) : List String → Option (List Command)
  | [] => some []
  | text :: rest =>
    if lexLine text.toList [] = [] then assembleLines c rest
    else (assembleText c text).bind fun cmd => (assembleLines c rest).map fun cmds => cmd :: cmds

end Sys2Proof.Machine
end

