-- ==== Sys2Proof/Safety.lean ====
section
/-! DEFINITION. The terms claims about the block are made in: the invariant, the commands of the block, what a command
reads, writes and can answer, what an assembler line writes and gives (10_state.md R24, R29, R31; 30_encoding.md R66, R70; 60_exceptions.md R190, R198). -/

namespace Sys2Proof.Machine

/-! ## The invariant -/

/-- TBL_M is 1 to M_MAX, the entries below 2^(2m) are the dot products, no other entry holds a value, and the memory
has its canonical form (R29, R30, R31). -/
structure Table.Sound (c : Config) (t : Table) : Prop where
  one_le : 1 ≤ t.m.toNat
  le_max : t.m.toNat ≤ c.mMax
  canonical : Memory.wf t.cells
  entry : ∀ i j, i < 2 ^ t.m.toNat → j < 2 ^ t.m.toNat →
    Memory.read t.cells (i * 2 ^ t.m.toNat + j) = some (parity (i &&& j))
  above : ∀ idx, 2 ^ (2 * t.m.toNat) ≤ idx → Memory.read t.cells idx = none

/-- The forms a response payload has (R70). -/
def ResponsePayload.Wf (c : Config) : ResponsePayload → Prop
  | .none => True
  | .coef length coeffs =>
    0 ≤ length.toInt ∧ (coeffs.length : Int) = length.toInt ∧ (coeffs ≠ [] → coeffs.getLast? = some true)
  | .int width _ => width = c.cap ∨ width = c.rcap
  | .deg value => -1 ≤ value.toInt ∧ value.toInt ≤ (c.rcap : Int) - 1
  | .bit _ => True

/-- A response of the block: a payload only with status OK, code 3 never (R70, R190, R193). -/
structure Response.Wf (c : Config) (r : Response) : Prop where
  payload_only_ok : r.status ≠ .ok → r.payload = .none
  never_mismatch : r.status ≠ .algorithmMismatch
  form : r.payload.Wf c

/-- The invariant of the machine between two commands: a valid table is sound, no payload is left, and every response
given has a form of the spec. -/
structure State.Inv (s : State) : Prop where
  table : ∀ t, s.table = some t → t.Sound s.cfg
  idle : s.payload = .none
  responses : ∀ r ∈ s.responses, r.Wf s.cfg

/-! ## Commands of the block -/

/-- The payload is of the kind called for, can be written down, and P-INT has CAP bits (R66 to R69). -/
def payloadFits (c : Config) (k : PayloadKind) (p : Payload) : Bool :=
  p.kind == k && p.wf &&
    match p with
    | .none => true
    | .coef _ _ => true
    | .int width _ => width == c.cap
    | .pair _ => true

/-- The payload kind a word calls for: nothing is taken for an illegal word (R63, R197). -/
def wordPayloadKind (w : Word) : PayloadKind := ((decode w).map Instr.payloadKind).getD .none

/-- The pair is a command of the block, not an ill-formed one (R66). -/
def Command.wellFormed (c : Config) (cmd : Command) : Bool := payloadFits c (wordPayloadKind cmd.word) cmd.payload

/-- The input is a command of the block. -/
def Input.isCommand (c : Config) : Input → Bool
  | .command cmd => Command.wellFormed c cmd
  | .reset => false
  | .abandoned _ => false

/-- A multiply with a legal parameter: MUL* of 44_properties.md. -/
def legalMultiply (c : Config) : Instr → Bool
  | .ldc _ => false
  | .ldi _ => false
  | .stc _ => false
  | .sti _ => false
  | .deg _ => false
  | .coef _ _ => false
  | .muln => true
  | .mulb m => decide (1 ≤ m) && decide (m ≤ (c.mMax : Int))
  | .mulc w => decide (1 ≤ w) && decide (w ≤ (c.wMax : Int))
  | .tbld _ => false
  | .tblq => false
  | .tblx => false

/-- A multiply command, with any parameter. -/
def isMultiply : Instr → Bool
  | .ldc _ => false
  | .ldi _ => false
  | .stc _ => false
  | .sti _ => false
  | .deg _ => false
  | .coef _ _ => false
  | .muln => true
  | .mulb _ => true
  | .mulc _ => true
  | .tbld _ => false
  | .tblq => false
  | .tblx => false

/-! ## How a command ends -/

/-- The command ended with the response `r`, the parameters and what the host has still to give being as before, and the
block ready for the next command (R60, R200). -/
structure State.Ended (s t : State) (r : Response) : Prop where
  cfg : t.cfg = s.cfg
  inputs : t.inputs = s.inputs
  payload : t.payload = .none
  responses : t.responses = s.responses ++ [r]

/-- PA, PB, PR, TBL_VALID, TBL_M and TBL are all as before. -/
structure State.SameBlock (s t : State) : Prop where
  poly : ∀ r, t.poly r = s.poly r
  table : t.table = s.table

/-- The entry of TBL at an index, when it holds a value. -/
def State.tableEntry (s : State) (idx : Nat) : Option Bool := s.table.bind fun t => Memory.read t.cells idx

/-- The six items hold their reset values (R34). -/
structure State.IsReset (s : State) : Prop where
  pa : s.poly .pa = 0
  pb : s.poly .pb = 0
  pr : s.poly .pr = 0
  tblValid : s.tblValid = false
  tblM : s.tblM = none
  tbl : ∀ idx, s.tableEntry idx = none

/-! ## What a command reads and writes (R24) -/

/-- The six items of R20. -/
inductive StateItem where
  | pa
  | pb
  | pr
  | tblValid
  | tblM
  | tbl
deriving DecidableEq, Repr

/-- The two states agree on an item. -/
def StateItem.Same : StateItem → State → State → Prop
  | .pa, s, t => s.poly .pa = t.poly .pa
  | .pb, s, t => s.poly .pb = t.poly .pb
  | .pr, s, t => s.poly .pr = t.poly .pr
  | .tblValid, s, t => s.tblValid = t.tblValid
  | .tblM, s, t => s.tblM = t.tblM
  | .tbl, s, t => ∀ idx, s.tableEntry idx = t.tableEntry idx

/-- The item a polynomial register is. -/
def PolyReg.item : PolyReg → StateItem
  | .pa => .pa
  | .pb => .pb
  | .pr => .pr

/-- The R entries of the table of R24. -/
def readItems : Instr → List StateItem
  | .ldc _ => []
  | .ldi _ => []
  | .stc r => [PolyReg.item r]
  | .sti r => [PolyReg.item r]
  | .deg r => [PolyReg.item r]
  | .coef r _ => [PolyReg.item r]
  | .muln => [.pa, .pb]
  | .mulb _ => [.pa, .pb, .tblValid, .tblM, .tbl]
  | .mulc _ => [.pa, .pb]
  | .tbld _ => []
  | .tblq => [.tblValid, .tblM, .tbl]
  | .tblx => []

/-- The W entries of the table of R24. -/
def writtenItems : Instr → List StateItem
  | .ldc d => [PolyReg.item d.toPolyReg]
  | .ldi d => [PolyReg.item d.toPolyReg]
  | .stc _ => []
  | .sti _ => []
  | .deg _ => []
  | .coef _ _ => []
  | .muln => [.pr]
  | .mulb _ => [.pr, .tblValid, .tblM, .tbl]
  | .mulc _ => [.pr]
  | .tbld _ => [.tblValid, .tblM, .tbl]
  | .tblq => []
  | .tblx => [.tblValid]

/-! ## What a command can answer (R198) -/

/-- The statuses a command can give: OK, and the crosses of R198. -/
def possibleStatuses : Instr → List Status
  | .ldc _ => [.ok, .invalidDegree, .capacityExceeded]
  | .ldi _ => [.ok]
  | .stc _ => [.ok]
  | .sti _ => [.ok]
  | .deg _ => [.ok]
  | .coef _ _ => [.ok, .indexRejected]
  | .muln => [.ok]
  | .mulb _ => [.ok, .configurationError]
  | .mulc _ => [.ok, .configurationError]
  | .tbld _ => [.ok, .configurationError]
  | .tblq => [.ok, .indexRejected, .tableNotBuilt]
  | .tblx => [.ok]

/-! ## What a line writes and gives (R67 to R69, R78) -/

/-- The payload of a line: LEN and the list in its order, the CAP-bit value, i and j in their halves, or nothing. -/
def AsmLine.Gives (c : Config) : AsmLine → Payload → Prop
  | .ldc _ cs, p => ∃ length : BitVec 32, p = .coef length cs ∧ length.toInt = cs.length
  | .ldcRaw _ stated cs, p =>
    ∃ length : BitVec 32, p = .coef length cs ∧ length.toInt = stated ∧ (cs.length : Int) = max stated 0
  | .ldi _ v, p => ∃ x : BitVec c.cap, p = .int c.cap x ∧ x.toNat = v
  | .stc _, p => p = .none
  | .sti _, p => p = .none
  | .deg _, p => p = .none
  | .coef _ _, p => p = .none
  | .muln, p => p = .none
  | .mulb _, p => p = .none
  | .mulc _, p => p = .none
  | .tbld _, p => p = .none
  | .tblq i j, p => ∃ word : BitVec 32, p = .pair word ∧ word.toNat / 65536 = i ∧ word.toNat % 65536 = j
  | .tblx, p => p = .none

/-- The name of a register in a line. -/
def PolyReg.name : PolyReg → List Char
  | .pa => ['P', 'A']
  | .pb => ['P', 'B']
  | .pr => ['P', 'R']

/-- A coefficient in a line. -/
def coefficientWord (b : Bool) : AsmToken := .word [if b then '1' else '0']

/-- A bracketed list, constant term first (R17). -/
def coefficientTokens : List Bool → List AsmToken
  | [] => [.openList, .closeList]
  | b :: bs => .openList :: coefficientWord b :: (bs.flatMap fun x => [.comma, coefficientWord x]) ++ [.closeList]

/-- The pieces after the mnemonic write this line, in the form R78 gives its command. -/
def AsmLine.Written : AsmLine → List AsmToken → Prop
  | .ldc d cs, ts => ts = .word (PolyReg.name d.toPolyReg) :: .comma :: coefficientTokens cs
  | .ldcRaw d stated cs, ts => ∃ w, readInt w = some stated ∧
    ts = .word (PolyReg.name d.toPolyReg) :: .comma :: .word ['l', 'e', 'n'] :: .equals :: .word w :: .comma ::
      coefficientTokens cs
  | .ldi d v, ts => ∃ w, readNat w = some v ∧ ts = [.word (PolyReg.name d.toPolyReg), .comma, .word w]
  | .stc r, ts => ts = [.word (PolyReg.name r)]
  | .sti r, ts => ts = [.word (PolyReg.name r)]
  | .deg r, ts => ts = [.word (PolyReg.name r)]
  | .coef r idx, ts => ∃ w, readInt w = some idx ∧ ts = [.word (PolyReg.name r), .comma, .word w]
  | .muln, ts => ts = []
  | .mulb none, ts => ts = []
  | .mulb (some m), ts => ∃ w, readInt w = some m ∧ ts = [.word w]
  | .mulc none, ts => ts = []
  | .mulc (some m), ts => ∃ w, readInt w = some m ∧ ts = [.word w]
  | .tbld m, ts => ∃ w, readInt w = some m ∧ ts = [.word w]
  | .tblq i j, ts => ∃ u v, readNat u = some i ∧ readNat v = some j ∧ ts = [.word u, .comma, .word v]
  | .tblx, ts => ts = []

/-- The characters of a piece. -/
def AsmToken.text : AsmToken → List Char
  | .word w => w
  | .comma => [',']
  | .openList => ['[']
  | .closeList => [']']
  | .equals => ['=']

end Sys2Proof.Machine
end

