-- ==== Sys2Proof/Certificates/Slice0/Obligations.lean ====
section
/-! DEFINITION. The statements for the provers, in the order of spec/: encoding, the machine's step, the invariant,
errors, each command, frames, the arithmetic. -/

open Sys2Proof Sys2Proof.Machine

/-! ## Encoding (30_encoding.md) -/

/-- R75: "Decode after encode is the identity on commands". -/
def Obligations.DecodeAfterEncode : Prop :=
  ∀ i : Instr, i.wf = true → decode (encode i) = some i

/-- R75: "encode after decode is the identity on legal words"; what a word decodes to fits its fields (R65). -/
def Obligations.EncodeAfterDecode : Prop :=
  ∀ (w : Word) (i : Instr), decode w = some i → encode i = w ∧ i.wf = true

/-- R63: a word decodes to a command exactly when the row of that command in the match and mask table selects it. -/
def Obligations.OpcodeRowsSelectTheDecodedCommand : Prop :=
  ∀ row ∈ opcodeRows, ∀ w : Word, (decode w).map Instr.mnemonic = some row.mnemonic ↔ row.selects w = true

/-- R72: which words are illegal, clause (a) to (e) on the word's bits, and what an illegal word does: the status
IllegalCommand and no state change. The all-zero word is illegal. -/
def Obligations.IllegalWordsAreAnsweredAndChangeNothing : Prop :=
  (∀ w : Word, decode w = none ↔
      (w.toNat % 256 ∉ [0x01, 0x02, 0x03, 0x04, 0x05, 0x06, 0x10, 0x11, 0x12, 0x20, 0x21, 0x22]) ∨
      (w.toNat / 65536 ≠ 0 ∧ w.toNat % 256 ∈ [0x01, 0x02, 0x03, 0x04, 0x05, 0x10, 0x21, 0x22]) ∨
      (w.toNat / 256 % 4 ≠ 0 ∧ w.toNat % 256 ∈ [0x10, 0x11, 0x12, 0x20, 0x21, 0x22]) ∨
      w.toNat / 1024 % 64 ≠ 0 ∨
      w.toNat / 256 % 4 = 3 ∨
      (w.toNat / 256 % 4 = 2 ∧ w.toNat % 256 ∈ [0x01, 0x02])) ∧
  (∀ (s : State) (w : Word) (rest : List Input), decode w = none → s.inputs = .command ⟨w, .none⟩ :: rest →
      ∃ t, step s = .next t ∧ State.Ended { s with inputs := rest } t ⟨.illegalCommand, .none⟩ ∧ s.SameBlock t) ∧
  decode 0x00000000 = none

/-- R45: the four bytes of a word, least significant first, decode at the head of a byte stream to what the word
decodes to, and leave the bytes after it. -/
def Obligations.BytesOfAWordDecodeAsTheWord : Prop :=
  ∀ (w : Word) (rest : List Byte),
    decodeBytes (bytesOfWord w ++ rest) = (decode w).map (fun i => (i, rest)) ∧
    (bytesOfWord w).map BitVec.toNat =
      [w.toNat % 256, w.toNat / 256 % 256, w.toNat / 65536 % 256, w.toNat / 16777216]

/-- Worked encodings of 30_encoding.md section 7 and two reserved words. -/
def Obligations.WorkedEncodingsDecode : Prop :=
  decode 0x00000101 = some (.ldc .pb) ∧ decode 0x00000002 = some (.ldi .pa) ∧ decode 0x00000203 = some (.stc .pr) ∧
  decode 0x00000204 = some (.sti .pr) ∧ decode 0x00000005 = some (.deg .pa) ∧
  decode 0xFFFF0206 = some (.coef .pr (-1)) ∧ decode 0x00000010 = some .muln ∧ decode 0x00040011 = some (.mulb 4) ∧
  decode 0x00400012 = some (.mulc 64) ∧ decode 0x00020020 = some (.tbld 2) ∧ decode 0x00000021 = some .tblq ∧
  decode 0x00000022 = some .tblx ∧ decode 0x00000303 = none ∧ decode 0x00000410 = none

/-- R78, R80: a line assembles to exactly the command whose word decodes to the line's instruction and whose payload is
the line's (LEN and the list in its order, the CAP-bit value, i in [31:16] and j in [15:0]), and there is none for an
integer out of range; that command is well-formed. A text line assembles to the command of the line that is read from it
(its spelling: log entry 9). An omitted operand of MULB is 4 and of MULC is 64, with the words of R80. -/
def Obligations.AssembledLinesAreCommands : Prop :=
  (∀ (c : Config) (line : AsmLine) (cmd : Command),
      (assemble c line = some cmd ↔ decode cmd.word = some line.instr ∧ line.Gives c cmd.payload) ∧
      (assemble c line = some cmd → Command.wellFormed c cmd = true)) ∧
  (∀ (c : Config) (text : String) (cmd : Command), assembleText c text = some cmd →
      ∃ (m : List Char) (ts : List AsmToken) (line : AsmLine), lexLine text.toList [] = .word m :: ts ∧
        readLine (String.ofList m) ts = some line ∧ assemble c line = some cmd ∧ decode cmd.word = some line.instr ∧
        line.Gives c cmd.payload) ∧
  (∀ c : Config, assemble c (.mulb none) = some ⟨0x00040011, .none⟩ ∧ assemble c (.mulc none) = some ⟨0x00400012, .none⟩)

/-! ## The step (20_memory.md, 70_reset_and_hazards.md) -/

/-- A step on a command whose word decodes runs that instruction, with the command taken from the host and its payload
at hand. -/
def Obligations.StepRunsTheDecodedCommand : Prop :=
  ∀ (s : State) (c : Command) (rest : List Input) (i : Instr),
    s.inputs = .command c :: rest → decode c.word = some i →
    step s = exec i { s with inputs := rest, payload := c.payload }

/-- R66: a pair whose payload is not what the word's opcode calls for is refused at the boundary, and no command of the
block is refused. -/
def Obligations.ExactlyIllFormedPairsAreRefused : Prop :=
  ∀ (s : State) (c : Command) (rest : List Input), s.inputs = .command c :: rest →
    ((∃ r, step s = .refused r) ↔ Command.wellFormed s.cfg c = false) ∧
    (∀ r, step s = .refused r → r = .payloadIllFormed)

/-- R60, R226: a command of the block is taken from the head of what the host gives, nothing else of it is touched, and
exactly one response is given. -/
def Obligations.EveryCommandGetsOneResponse : Prop :=
  ∀ (s : State) (c : Command) (rest : List Input), s.Inv → s.inputs = .command c :: rest →
    Command.wellFormed s.cfg c = true →
    ∃ t r, step s = .next t ∧ State.Ended { s with inputs := rest } t r

/-- R235: a command stream of n commands produces n responses. -/
def Obligations.CommandStreamProducesAsManyResponses : Prop :=
  ∀ s : State, s.Inv → (∀ x ∈ s.inputs, Input.isCommand s.cfg x = true) →
    ∃ (t : State) (rs : List Response), Host.Core.run Sys2Proof.core s.inputs.length s = .next t ∧
      rs.length = s.inputs.length ∧ t.responses = s.responses ++ rs ∧ t.inputs = [] ∧ t.Inv

/-- R212: with nothing given the block is idle and holds its state. -/
def Obligations.IdleBlockHoldsItsState : Prop :=
  ∀ s : State, s.inputs = [] → step s = .next s

/-- R34, for a block of any parameters: PA = PB = PR = 0, TBL_VALID = 0. That the unreadable TBL_M and TBL hold no value
is the model's reading of R30 and U3 (log entry 4), and that no payload is at hand is its choice (log entry 3). -/
def Obligations.ResetStateHoldsTheResetValues : Prop :=
  (∀ c : Config, (State.resetOf c).IsReset ∧ (State.resetOf c).cfg = c ∧ (State.resetOf c).payload = .none) ∧
    State.reset.IsReset

/-- R220: after a reset between two commands the state is the reset state. That the host's own lists stay is the model's
(log entry 2). -/
def Obligations.ResetEventGivesTheResetState : Prop :=
  ∀ (s : State) (rest : List Input), s.inputs = .reset :: rest →
    ∃ t, step s = .next t ∧ t.IsReset ∧ t.cfg = s.cfg ∧ t.payload = .none ∧ t.inputs = rest ∧ t.responses = s.responses

/-- R221: a reset that arrives while a command is in progress abandons it: no response is given for it, and the state is
the reset state, not a mixture; it is the state a reset instead of the command gives. -/
def Obligations.ResetDuringACommandAbandonsIt : Prop :=
  ∀ (s : State) (c : Command) (rest : List Input), s.Inv → Command.wellFormed s.cfg c = true →
    s.inputs = .abandoned c :: rest →
    step s = step { s with inputs := .reset :: rest } ∧
    ∃ t, step s = .next t ∧ t.IsReset ∧ t.inputs = rest ∧ t.responses = s.responses

/-- R33: the parameters are fixed for the life of the block. -/
def Obligations.NoStepChangesTheParameters : Prop :=
  ∀ s t : State, step s = .next t → t.cfg = s.cfg

/-- R28: no command can read an earlier command's status: with any other responses before it, a command gives the same
response and leaves the same state. -/
def Obligations.EarlierResponsesAreNeverRead : Prop :=
  ∀ (s t : State) (rs : List Response) (new : List Response), step s = .next t → t.responses = s.responses ++ new →
    step { s with responses := rs } = .next { t with responses := rs ++ new }

/-! ## The invariant -/

/-- R29, R31, R70: every step keeps the table sound, the block ready, and the responses in a form of the spec. -/
def Obligations.EveryStepKeepsTheInvariant : Prop :=
  ∀ s t : State, s.Inv → step s = .next t → t.Inv

/-- The reset state of a block of any parameters meets the invariant. -/
def Obligations.ResetStateMeetsTheInvariant : Prop :=
  (∀ c : Config, (State.resetOf c).Inv) ∧ State.reset.Inv

/-- R41: a read of an unmapped table location cannot be expressed by any command: under the invariant no step faults. -/
def Obligations.NoCommandReadsAnUnmappedTableLocation : Prop :=
  ∀ (s : State) (f : Fault), s.Inv → step s ≠ .fault f

/-! ## Errors (60_exceptions.md) -/

/-- R190: the codes of the eight names, and no command gives code 3 or a code of 8 to 255. -/
def Obligations.StatusCodesAreThoseOfTheTable : Prop :=
  (Status.ok.code = 0 ∧ Status.invalidDegree.code = 1 ∧ Status.configurationError.code = 2 ∧
    Status.algorithmMismatch.code = 3 ∧ Status.indexRejected.code = 4 ∧ Status.illegalCommand.code = 5 ∧
    Status.capacityExceeded.code = 6 ∧ Status.tableNotBuilt.code = 7) ∧
  (∀ (s t : State) (new : List Response), step s = .next t → t.responses = s.responses ++ new →
    ∀ r ∈ new, r.status.code.toNat < 8 ∧ r.status.code ≠ 3)

/-- R200: a command whose status is not OK writes no state, its response is the code alone, and the block is ready for
the next command exactly as after an OK. -/
def Obligations.RaisedStatusWritesNoState : Prop :=
  ∀ (s t : State) (c : Command) (rest : List Input) (r : Response), s.inputs = .command c :: rest →
    step s = .next t → t.responses = s.responses ++ [r] → r.status ≠ .ok →
    r.payload = .none ∧ s.SameBlock t ∧ State.Ended { s with inputs := rest } t r

/-- R198: the statuses a command can answer are OK and the crosses of its row, and each of them is answered by some
command of that row. -/
def Obligations.StatusesAreThoseOfTheirRow : Prop :=
  (∀ (i : Instr) (s t : State), exec i s = .next t →
      ∃ r, t.responses = s.responses ++ [r] ∧ r.status ∈ possibleStatuses i) ∧
  (∀ (i : Instr), ∀ st ∈ possibleStatuses i, ∃ (i' : Instr) (s t : State) (p : ResponsePayload),
      i'.mnemonic = i.mnemonic ∧ exec i' s = .next t ∧ t.responses = s.responses ++ [⟨st, p⟩])

/-! ## The representation commands (40_representation.md) -/

/-- R94: LDC, by its LEN. Negative: InvalidDegree. Above CAP: CapacityExceeded, on LEN alone. Else the register holds
the integer of the sequence; the other register, PR and the table are unchanged. -/
def Obligations.LdcLoadsOrRejectsByItsLength : Prop :=
  ∀ (s : State) (d : LoadReg) (length : BitVec 32) (coeffs : List Bool), s.payload = .coef length coeffs →
    (coeffs.length : Int) = max length.toInt 0 →
    (length.toInt < 0 →
      ∃ t, exec (.ldc d) s = .next t ∧ s.Ended t ⟨.invalidDegree, .none⟩ ∧ s.SameBlock t) ∧
    ((s.cfg.cap : Int) < length.toInt →
      ∃ t, exec (.ldc d) s = .next t ∧ s.Ended t ⟨.capacityExceeded, .none⟩ ∧ s.SameBlock t) ∧
    (0 ≤ length.toInt → length.toInt ≤ s.cfg.cap →
      ∃ t, exec (.ldc d) s = .next t ∧ s.Ended t ⟨.ok, .none⟩ ∧
        (∀ k, (t.poly d.toPolyReg).testBit k = coeffs.getD k false) ∧
        (∀ r, r ≠ d.toPolyReg → t.poly r = s.poly r) ∧ t.table = s.table)

/-- R95: LDI takes the CAP-bit value as it is; LDC of a sequence of the same polynomial leaves the same register. -/
def Obligations.LdiLoadsTheValueAsItIs : Prop :=
  ∀ (s : State) (d : LoadReg) (v : BitVec s.cfg.cap), s.payload = .int s.cfg.cap v →
    ∃ t, exec (.ldi d) s = .next t ∧ s.Ended t ⟨.ok, .none⟩ ∧ t.poly d.toPolyReg = v.toNat ∧
      (∀ r, r ≠ d.toPolyReg → t.poly r = s.poly r) ∧ t.table = s.table ∧
      ∀ (length : BitVec 32) (coeffs : List Bool) (u : State), toInteger coeffs = v.toNat →
        exec (.ldc d) { s with payload := .coef length coeffs } = .next u →
        u.responses = s.responses ++ [⟨.ok, .none⟩] → u = t

/-- R96: STC responds the canonical coefficient sequence of the register, empty for zero; the state is unchanged. -/
def Obligations.StcRespondsTheCanonicalSequence : Prop :=
  ∀ (s : State) (r : PolyReg), s.payload = .none →
    ∃ (t : State) (length : BitVec 32) (coeffs : List Bool), exec (.stc r) s = .next t ∧
      s.Ended t ⟨.ok, .coef length coeffs⟩ ∧ s.SameBlock t ∧
      length.toInt = coeffs.length ∧ (∀ k, coeffs.getD k false = (s.poly r).testBit k) ∧
      (s.poly r = 0 → coeffs = []) ∧ (s.poly r ≠ 0 → coeffs.getLast? = some true)

/-- R97: STI responds the register whole, CAP bits for PA and PB, RCAP = 2*CAP - 1 bits for PR; the state is unchanged. -/
def Obligations.StiRespondsTheWholeRegister : Prop :=
  ∀ s : State, s.payload = .none →
    (∃ t, exec (.sti .pa) s = .next t ∧ s.Ended t ⟨.ok, .int s.cfg.cap s.pa⟩ ∧ s.SameBlock t) ∧
    (∃ t, exec (.sti .pb) s = .next t ∧ s.Ended t ⟨.ok, .int s.cfg.cap s.pb⟩ ∧ s.SameBlock t) ∧
    (∃ t, exec (.sti .pr) s = .next t ∧ s.Ended t ⟨.ok, .int (2 * s.cfg.cap - 1) s.pr⟩ ∧ s.SameBlock t)

/-- R98: DEG responds the position of the highest 1 of the register as a 32-bit signed integer, and -1, that is
0xFFFFFFFF, for zero; the state is unchanged. -/
def Obligations.DegRespondsTheHighestSetPosition : Prop :=
  ∀ (s : State) (r : PolyReg), s.payload = .none →
    ∃ (t : State) (v : BitVec 32), exec (.deg r) s = .next t ∧ s.Ended t ⟨.ok, .deg v⟩ ∧ s.SameBlock t ∧
      (s.poly r = 0 → v = 0xFFFFFFFF#32) ∧
      (s.poly r ≠ 0 → ∃ d : Nat, v.toInt = d ∧ (s.poly r).testBit d = true ∧ ∀ k, d < k → (s.poly r).testBit k = false)

/-- R99: COEF rejects a negative index and else responds the coefficient, which is 0 at and above the register's width;
the state is unchanged. -/
def Obligations.CoefRespondsOneCoefficient : Prop :=
  ∀ (s : State) (r : PolyReg) (idx : Int), s.payload = .none →
    (idx < 0 → ∃ t, exec (.coef r idx) s = .next t ∧ s.Ended t ⟨.indexRejected, .none⟩ ∧ s.SameBlock t) ∧
    (∀ k : Nat, idx = k →
      ∃ t, exec (.coef r idx) s = .next t ∧ s.Ended t ⟨.ok, .bit ((s.poly r).testBit k)⟩ ∧ s.SameBlock t ∧
        (regWidth s.cfg r ≤ k → (s.poly r).testBit k = false))

/-- R93: the two codec laws, and what becomes of a sequence with false coefficients at its top. -/
def Obligations.CodecFunctionsAreInverse : Prop :=
  (∀ x : Nat, toInteger (toCoefficients x) = x) ∧
  (∀ c : List Bool, c = [] ∨ c.getLast? = some true → toCoefficients (toInteger c) = c) ∧
  (∀ c : List Bool, toCoefficients (toInteger (c ++ [false])) = toCoefficients (toInteger c))

/-! ## The multipliers (41_schoolbook.md, 42_block_table.md, 43_chunked.md) -/

/-- R110, with the value R112 derives: MULN always answers OK and leaves the product of R14 in PR; PA, PB and the table
are unchanged. -/
def Obligations.MulnLeavesTheProduct : Prop :=
  ∀ s : State, s.payload = .none →
    ∃ t, exec .muln s = .next t ∧ s.Ended t ⟨.ok, .none⟩ ∧
      (∀ k, (t.poly .pr).testBit k = clmulBit (s.poly .pa) (s.poly .pb) k) ∧
      t.poly .pa = s.poly .pa ∧ t.poly .pb = s.poly .pb ∧ t.table = s.table

/-- R112: after n iterations sa is a << n kept to RCAP bits, sb is b >> n, and acc is the product of a and b mod 2^n;
the loop of MULN stops after exactly len(b) iterations. -/
def Obligations.SchoolbookLoopKeepsItsRelation : Prop :=
  ∀ (s : State) (n : Nat), n ≤ len (s.poly .pb) →
    ((shiftStep^[n]) s.shiftStart).sa.toNat = s.poly .pa * 2 ^ n % 2 ^ s.cfg.rcap ∧
    ((shiftStep^[n]) s.shiftStart).sb.toNat = s.poly .pb / 2 ^ n ∧
    ((shiftStep^[n]) s.shiftStart).acc.toNat = clmul (s.poly .pa) (s.poly .pb % 2 ^ n) ∧
    (((shiftStep^[n]) s.shiftStart).sb = 0 ↔ n = len (s.poly .pb)) ∧
    shiftLoop s.cfg.cap s.shiftStart = (shiftStep^[len (s.poly .pb)]) s.shiftStart

/-- R121: MULB and TBLD check m before anything else. Outside 1..M_MAX both answer ConfigurationError and no state
changes, whatever the operands and the table; inside, neither answers it. -/
def Obligations.BlockSizeIsCheckedFirst : Prop :=
  ∀ (s : State) (m : Int), s.payload = .none →
    ((m ≤ 0 ∨ (s.cfg.mMax : Int) < m) →
      (∃ t, exec (.mulb m) s = .next t ∧ s.Ended t ⟨.configurationError, .none⟩ ∧ s.SameBlock t) ∧
      (∃ t, exec (.tbld m) s = .next t ∧ s.Ended t ⟨.configurationError, .none⟩ ∧ s.SameBlock t)) ∧
    (1 ≤ m → m ≤ s.cfg.mMax → ∀ (t : State) (p : ResponsePayload),
      exec (.mulb m) s = .next t ∨ exec (.tbld m) s = .next t →
      t.responses ≠ s.responses ++ [⟨.configurationError, p⟩])

/-- R131: with a zero operand and a legal m, MULB writes PR = 0 and does nothing else: the table is as it was. -/
def Obligations.MulbOfAZeroOperandLeavesTheTable : Prop :=
  ∀ (s : State) (m : Int), s.payload = .none → 1 ≤ m → m ≤ s.cfg.mMax → (s.poly .pa = 0 ∨ s.poly .pb = 0) →
    ∃ t, exec (.mulb m) s = .next t ∧ s.Ended t ⟨.ok, .none⟩ ∧ t.poly .pr = 0 ∧ t.poly .pa = s.poly .pa ∧
      t.poly .pb = s.poly .pb ∧ t.table = s.table

/-- R130, R125, with the value R132 derives: with non-zero operands, a legal m and a sound table (or none), MULB leaves
the product in PR and a sound table for m, the very one that was valid for m if there was one; PA and PB are unchanged. -/
def Obligations.MulbLeavesTheProductAndTheTable : Prop :=
  ∀ (s : State) (m : Int), s.payload = .none → (∀ tb, s.table = some tb → tb.Sound s.cfg) → 1 ≤ m → m ≤ s.cfg.mMax →
    s.poly .pa ≠ 0 → s.poly .pb ≠ 0 →
    ∃ t tb, exec (.mulb m) s = .next t ∧ s.Ended t ⟨.ok, .none⟩ ∧
      (∀ k, (t.poly .pr).testBit k = clmulBit (s.poly .pa) (s.poly .pb) k) ∧
      t.poly .pa = s.poly .pa ∧ t.poly .pb = s.poly .pb ∧
      t.table = some tb ∧ tb.Sound s.cfg ∧ (tb.m.toNat : Int) = m ∧
      (∀ old, s.table = some old → (old.m.toNat : Int) = m → tb = old)

/-- R151: MULC checks w before anything else. Outside 1..W_MAX it answers ConfigurationError and no state changes,
whatever the operands; inside, it does not answer it. -/
def Obligations.WordSizeIsCheckedFirst : Prop :=
  ∀ (s : State) (w : Int), s.payload = .none →
    ((w ≤ 0 ∨ (s.cfg.wMax : Int) < w) →
      ∃ t, exec (.mulc w) s = .next t ∧ s.Ended t ⟨.configurationError, .none⟩ ∧ s.SameBlock t) ∧
    (1 ≤ w → w ≤ s.cfg.wMax → ∀ (t : State) (p : ResponsePayload), exec (.mulc w) s = .next t →
      t.responses ≠ s.responses ++ [⟨.configurationError, p⟩])

/-- R150, R155, with the value R156 derives: with a legal w, MULC leaves the product in PR, which is 0 for a zero
operand; PA, PB and the table are unchanged. -/
def Obligations.MulcLeavesTheProduct : Prop :=
  ∀ (s : State) (w : Int), s.payload = .none → 1 ≤ w → w ≤ s.cfg.wMax →
    ∃ t, exec (.mulc w) s = .next t ∧ s.Ended t ⟨.ok, .none⟩ ∧
      (∀ k, (t.poly .pr).testBit k = clmulBit (s.poly .pa) (s.poly .pb) k) ∧
      ((s.poly .pa = 0 ∨ s.poly .pb = 0) → t.poly .pr = 0) ∧
      t.poly .pa = s.poly .pa ∧ t.poly .pb = s.poly .pb ∧ t.table = s.table

/-- R126: the blocks of m cover the range lo..hi, each position once and in order; a block before the last has m
positions, the last has 1 to m; there are ceil((hi - lo + 1) / m) of them. -/
def Obligations.BlocksPartitionTheRange : Prop :=
  ∀ m lo hi : Nat, 1 ≤ m → lo ≤ hi →
    ((blocks m lo hi).flatMap fun blk => List.range' blk.1 blk.2) = List.range' lo (hi - lo + 1) ∧
    (∀ blk ∈ blocks m lo hi, 1 ≤ blk.2 ∧ blk.2 ≤ m) ∧
    (∀ blk ∈ (blocks m lo hi).dropLast, blk.2 = m) ∧
    (blocks m lo hi).length = (hi - lo + 1 + (m - 1)) / m

/-- R127: for k of the convolution loop, a full block's indices are m-bit values whose bit t is a[s+t] and b[k-s-t], and
every coefficient index formed is in range. -/
def Obligations.BlockIndicesPairTheirPositions : Prop :=
  ∀ a b m k : Nat, a ≠ 0 → b ≠ 0 → 1 ≤ m → k < len a + len b - 1 →
    ∀ blk ∈ blocks m (startI (len b - 1) k) (endI (len a - 1) k),
      (blk.2 = m →
        blockIndexA m a blk.1 < 2 ^ m ∧ blockIndexB m b k blk.1 < 2 ^ m ∧
        ∀ p, p < m → (blockIndexA m a blk.1).testBit p = a.testBit (blk.1 + p) ∧
          (blockIndexB m b k blk.1).testBit p = b.testBit (k - (blk.1 + p))) ∧
      (∀ p, p < blk.2 → blk.1 + p < len a ∧ blk.1 + p ≤ k ∧ k - (blk.1 + p) < len b)

/-- R152: the chunks of w cover the range lo..hi, each position once and in order; a chunk before the last has w
positions, the last has 1 to w; there are ceil((hi - lo + 1) / w) of them. -/
def Obligations.ChunksPartitionTheRange : Prop :=
  ∀ w lo hi : Nat, 1 ≤ w → lo ≤ hi →
    ((chunks w lo hi).flatMap fun c => List.range' c.1 (c.2 - c.1 + 1)) = List.range' lo (hi - lo + 1) ∧
    (∀ c ∈ chunks w lo hi, c.1 ≤ c.2 ∧ c.2 - c.1 + 1 ≤ w) ∧
    (∀ c ∈ (chunks w lo hi).dropLast, c.2 - c.1 + 1 = w) ∧
    (chunks w lo hi).length = (hi - lo + 1 + (w - 1)) / w

/-- R153, R158: a chunk word holds the product of each of its positions, lowest at bit 0, 0 above, in w bits. -/
def Obligations.ChunkWordHoldsItsProducts : Prop :=
  ∀ (w a b k lo hi : Nat), 1 ≤ w → lo ≤ hi → ∀ c ∈ chunks w lo hi,
    (∀ i, c.1 ≤ i → i ≤ c.2 → (chunkWord a b k c).testBit (i - c.1) = (a.testBit i && b.testBit (k - i))) ∧
    (∀ p, c.2 - c.1 < p → (chunkWord a b k c).testBit p = false) ∧
    chunkWord a b k c < 2 ^ w

/-- R154: lane t of the accumulator holds the XOR, over all chunks q, of the product at position lo + q*w + t. -/
def Obligations.AccumulatorLanesXorTheChunkWords : Prop :=
  ∀ (w a b da db k t : Nat), 1 ≤ w → startI db k ≤ endI da k → t < w →
    (chunkAccumulator w a b da db k).testBit t =
      xorSum (chunks w (startI db k) (endI da k)).length fun q =>
        decide (startI db k + q * w + t ≤ endI da k) &&
          (a.testBit (startI db k + q * w + t) && b.testBit (k - (startI db k + q * w + t)))

/-! ## The table commands (42_block_table.md) -/

/-- R122: TBLD with a legal m builds the table for m, whatever table there was; PA, PB, PR are unchanged. -/
def Obligations.TbldBuildsASoundTable : Prop :=
  ∀ (s : State) (m : Int), s.payload = .none → 1 ≤ m → m ≤ s.cfg.mMax →
    ∃ t tb, exec (.tbld m) s = .next t ∧ s.Ended t ⟨.ok, .none⟩ ∧ (∀ r, t.poly r = s.poly r) ∧ t.tblValid = true ∧
      t.table = some tb ∧ (tb.m.toNat : Int) = m ∧ tb.Sound s.cfg

/-- R122, R49: writing the entries of the table for m into an empty memory, in any order, gives the table TBLD builds. -/
def Obligations.TableWriteOrderIsFree : Prop :=
  ∀ (m : Nat) (pairs : List (Nat × Nat)),
    pairs.Perm ((List.range (2 ^ m)).flatMap fun i => (List.range (2 ^ m)).map fun j => (i, j)) →
    pairs.foldl (fun mem p => Memory.write mem (p.1 * 2 ^ m + p.2) (parity (p.1 &&& p.2))) [] = builtCells m

/-- The last corner case of R122, which the spec marks as its own inference: 2^(2m-1) - 2^(m-1) entries are 1. -/
def Obligations.TableHoldsTheStatedNumberOfOnes : Prop :=
  ∀ m : Nat, 1 ≤ m → (builtCells m).countP (fun c => c.2) = 2 ^ (2 * m - 1) - 2 ^ (m - 1)

/-- R123: TBLQ answers TableNotBuilt with no table, IndexRejected for a value that is not an m-bit value, else the entry,
which is parity(i & j) for a sound table, in either order of i and j. It changes no state. -/
def Obligations.TblqAnswersTheEntry : Prop :=
  ∀ (s : State) (word : BitVec 32), s.payload = .pair word → (∀ tb, s.table = some tb → tb.Sound s.cfg) →
    (s.table = none → ∃ t, exec .tblq s = .next t ∧ s.Ended t ⟨.tableNotBuilt, .none⟩ ∧ s.SameBlock t) ∧
    (∀ tb, s.table = some tb →
      (2 ^ tb.m.toNat ≤ word.toNat / 65536 ∨ 2 ^ tb.m.toNat ≤ word.toNat % 65536 →
        ∃ t, exec .tblq s = .next t ∧ s.Ended t ⟨.indexRejected, .none⟩ ∧ s.SameBlock t) ∧
      (word.toNat / 65536 < 2 ^ tb.m.toNat → word.toNat % 65536 < 2 ^ tb.m.toNat →
        ∃ t v, exec .tblq s = .next t ∧ s.Ended t ⟨.ok, .bit v⟩ ∧ s.SameBlock t ∧
          s.tableEntry (word.toNat / 65536 * 2 ^ tb.m.toNat + word.toNat % 65536) = some v ∧
          s.tableEntry (word.toNat % 65536 * 2 ^ tb.m.toNat + word.toNat / 65536) = some v ∧
          v = parity ((word.toNat / 65536) &&& (word.toNat % 65536))))

/-- R124: TBLX drops the table; TBL_M and the entries then hold no value; with no table it is OK and changes nothing. -/
def Obligations.TblxDropsTheTable : Prop :=
  ∀ s : State, s.payload = .none →
    ∃ t, exec .tblx s = .next t ∧ s.Ended t ⟨.ok, .none⟩ ∧ (∀ r, t.poly r = s.poly r) ∧ t.tblValid = false ∧
      t.tblM = none ∧ (∀ idx, t.tableEntry idx = none) ∧ (s.tblValid = false → s.SameBlock t)

/-! ## Frames (10_state.md R24 to R26) -/

/-- The W half of R24: a command writes only the items its row marks W. (TBLX: TBL_M and the entries hold no value after
it, R124.) Parameters and what the host has still to give are never written. -/
def Obligations.CommandsWriteOnlyTheirItems : Prop :=
  ∀ (i : Instr) (s t : State) (item : StateItem), exec i s = .next t → item ∉ writtenItems i →
    (i = .tblx → item ≠ .tblM ∧ item ≠ .tbl) →
    StateItem.Same item s t ∧ t.cfg = s.cfg ∧ t.inputs = s.inputs

/-- The R half of R24: two blocks of the same parameters that agree on the payload and on the items marked R give the
same response, and after an OK agree on every item marked W. -/
def Obligations.CommandsReadOnlyTheirItems : Prop :=
  ∀ (i : Instr) (s1 s2 t1 t2 : State), s1.cfg = s2.cfg → s1.payload = s2.payload →
    (∀ item ∈ readItems i, StateItem.Same item s1 s2) → exec i s1 = .next t1 → exec i s2 = .next t2 →
    ∃ r, t1.responses = s1.responses ++ [r] ∧ t2.responses = s2.responses ++ [r] ∧
      (r.status = .ok → ∀ item ∈ writtenItems i, StateItem.Same item t1 t2)

/-- R25: after MULN, MULB or MULC, with any status, PA and PB hold what they held. -/
def Obligations.MultipliesKeepTheirOperands : Prop :=
  ∀ (i : Instr) (s t : State), isMultiply i = true → exec i s = .next t →
    t.poly .pa = s.poly .pa ∧ t.poly .pb = s.poly .pb

/-- R26: the value a multiply writes to PR is a function of PA and PB: it is the same for two legal multiplies, of any
kind and parameter, in two blocks that agree on PA and PB, whatever their PR, table, TBL_M, earlier commands and
capacities. -/
def Obligations.ProductDependsOnTheOperandsAlone : Prop :=
  ∀ (i1 i2 : Instr) (s1 s2 t1 t2 : State), s1.Inv → s2.Inv → legalMultiply s1.cfg i1 = true →
    legalMultiply s2.cfg i2 = true → s1.poly .pa = s2.poly .pa → s1.poly .pb = s2.poly .pb →
    exec i1 s1 = .next t1 → exec i2 s2 = .next t2 → t1.poly .pr = t2.poly .pr

/-- Every table entry is as before, at every index, after every command that neither builds nor drops a table: every one
but TBLD with a legal m, TBLX with a table there, and MULB with a legal m, non-zero operands and no table for that m. -/
def Obligations.TableMemoryIsUnchangedUnlessBuiltOrDropped : Prop :=
  ∀ (i : Instr) (s t : State), exec i s = .next t →
    (match i with
      | .tbld m => m ≤ 0 ∨ (s.cfg.mMax : Int) < m
      | .tblx => s.tblValid = false
      | .mulb m =>
        m ≤ 0 ∨ (s.cfg.mMax : Int) < m ∨ s.poly .pa = 0 ∨ s.poly .pb = 0 ∨
          ∃ tb, s.table = some tb ∧ (tb.m.toNat : Int) = m
      | _ => True) →
    ∀ idx, t.tableEntry idx = s.tableEntry idx

/-! ## The arithmetic (44_properties.md) -/

/-- R165: for all register values, every legal m and every legal w, MULN, MULB m and MULC w complete and leave the same
value in PR, which is the reference product of R14. -/
def Obligations.AllMultipliersLeaveTheReferenceProduct : Prop :=
  ∀ (s : State) (i : Instr), s.Inv → legalMultiply s.cfg i = true →
    ∃ t, exec i s = .next t ∧ t.poly .pr = clmul (s.poly .pa) (s.poly .pb)

/-- R170: for fixed operands two legal multiplies, of any kind and with any block size or word size, leave the same
PR. -/
def Obligations.BlockAndWordSizeDoNotChangeTheProduct : Prop :=
  ∀ (s t1 t2 : State) (i1 i2 : Instr), s.Inv → legalMultiply s.cfg i1 = true → legalMultiply s.cfg i2 = true →
    exec i1 s = .next t1 → exec i2 s = .next t2 → t1.poly .pr = t2.poly .pr

/-- R166: multiplying by the constant polynomial 1 gives the other operand. -/
def Obligations.MultiplyingByOneGivesTheOperand : Prop :=
  ∀ (s : State) (i : Instr), s.Inv → legalMultiply s.cfg i = true → s.poly .pb = 1 →
    ∃ t, exec i s = .next t ∧ t.poly .pr = s.poly .pa

/-- R167: a zero operand gives the zero product, and STC PR then gives LEN = 0. -/
def Obligations.ZeroAbsorbs : Prop :=
  ∀ (s : State) (i : Instr), s.Inv → legalMultiply s.cfg i = true → (s.poly .pa = 0 ∨ s.poly .pb = 0) →
    ∃ t u, exec i s = .next t ∧ t.poly .pr = 0 ∧ exec (.stc .pr) t = .next u ∧
      u.responses = t.responses ++ [⟨.ok, .coef 0 []⟩]

/-- R168, which the spec derives from R14: exchanging the operands does not change the product. -/
def Obligations.ProductIsCommutative : Prop :=
  ∀ (s1 s2 : State) (i : Instr), s1.Inv → s2.Inv → s1.cfg = s2.cfg → legalMultiply s1.cfg i = true →
    s1.poly .pa = s2.poly .pb → s1.poly .pb = s2.poly .pa →
    ∃ t1 t2, exec i s1 = .next t1 ∧ exec i s2 = .next t2 ∧ t1.poly .pr = t2.poly .pr

/-- R169: for non-zero operands the degree of the product is at most the sum of the degrees; it is equal to it (the
spec's inference), so the product is not zero. -/
def Obligations.DegreeOfTheProductIsTheSum : Prop :=
  ∀ (s : State) (i : Instr), s.Inv → legalMultiply s.cfg i = true → s.poly .pa ≠ 0 → s.poly .pb ≠ 0 →
    ∃ t, exec i s = .next t ∧ deg (t.poly .pr) = deg (s.poly .pa) + deg (s.poly .pb) ∧ t.poly .pr ≠ 0

/-- The laws R175 derives: shift, distributivity over XOR, associativity, squaring, evaluation at 1. -/
def Obligations.ReferenceProductLaws : Prop :=
  (∀ a n : Nat, clmul a (2 ^ n) = a * 2 ^ n) ∧
  (∀ a b c : Nat, clmul a (b ^^^ c) = clmul a b ^^^ clmul a c) ∧
  (∀ a b c : Nat, clmul (clmul a b) c = clmul a (clmul b c)) ∧
  (∀ a k : Nat, (clmul a a).testBit (2 * k) = a.testBit k ∧ (clmul a a).testBit (2 * k + 1) = false) ∧
  (∀ a b : Nat, parity (clmul a b) = (parity a && parity b))

/-! ## The assembler's text (30_encoding.md R78) -/

/-- R78, with the spelling of log entry 9: a line is read as exactly the lines its mnemonic and operands write, the
pieces of a text are those written in it up to a comment, and integers are read in decimal, 0x hex and 0b binary. -/
def Obligations.TextLinesAreReadAsWritten : Prop :=
  (∀ (mnemonic : String) (ts : List AsmToken) (line : AsmLine),
      readLine mnemonic ts = some line ↔ mnemonic = line.instr.mnemonic ∧ line.Written ts) ∧
  (∀ (ts : List AsmToken) (comment : List Char),
      (∀ w, .word w ∈ ts → w ≠ [] ∧ ∀ ch ∈ w, ch ∉ [';', ' ', '\t', ',', '[', ']', '=']) →
      lexLine (ts.flatMap (fun tk => tk.text ++ [' ']) ++ ';' :: comment) [] = ts) ∧
  (∀ n : Nat, readNat (Nat.toDigits 10 n) = some n ∧ readNat ('0' :: 'x' :: Nat.toDigits 16 n) = some n ∧
      readNat ('0' :: 'b' :: Nat.toDigits 2 n) = some n ∧ readInt (Nat.toDigits 10 n) = some (n : Int) ∧
      readInt ('-' :: Nat.toDigits 10 n) = some (-(n : Int)))
end

