-- ==== Sys2Proof/Laws/Encoding.lean ====
section
/-! SUPPORT. The fields of a command word as numbers, and a word from its fields (30_encoding.md R61, R65). -/

namespace Sys2Proof

/-! ## Fields as numbers -/

theorem opcField_toNat (w : Word) : (opcField w).toNat = w.toNat % 256 := by simp [opcField]

theorem pselField_toNat (w : Word) : (pselField w).toNat = w.toNat / 256 % 4 := by
  simp [pselField, Nat.shiftRight_eq_div_pow]

theorem rsvField_toNat (w : Word) : (rsvField w).toNat = w.toNat / 1024 % 64 := by
  simp [rsvField, Nat.shiftRight_eq_div_pow]

theorem immField_toNat (w : Word) : (immField w).toNat = w.toNat / 65536 := by
  have := w.isLt
  simp [immField, Nat.shiftRight_eq_div_pow]
  omega

/-- A word assembled from fields, as a number: `opc | (psel << 8) | ((imm mod 65536) << 16)` (R75). -/
theorem wordOfFields_toNat (imm : Int) (psel : BitVec 2) (opc : BitVec 8) :
    (wordOfFields imm psel opc).toNat = (BitVec.ofInt 16 imm).toNat * 65536 + psel.toNat * 256 + opc.toNat := by
  have h1 : (wordOfFields imm psel opc).toNat =
      (((BitVec.ofInt 16 imm).toNat <<< 6 ||| 0) <<< 2 ||| psel.toNat) <<< 8 ||| opc.toNat := by
    rw [wordOfFields, BitVec.toNat_append, BitVec.toNat_append, BitVec.toNat_append]
    rfl
  rw [h1, ← Nat.shiftLeft_add_eq_or_of_lt opc.isLt, ← Nat.shiftLeft_add_eq_or_of_lt psel.isLt, Nat.or_zero,
    Nat.shiftLeft_eq, Nat.shiftLeft_eq, Nat.shiftLeft_eq]
  omega

/-! ## The fields of an assembled word -/

theorem opcField_wordOfFields (imm : Int) (psel : BitVec 2) (opc : BitVec 8) :
    opcField (wordOfFields imm psel opc) = opc := by
  apply BitVec.eq_of_toNat_eq
  rw [opcField_toNat, wordOfFields_toNat]
  have := opc.isLt
  omega

theorem pselField_wordOfFields (imm : Int) (psel : BitVec 2) (opc : BitVec 8) :
    pselField (wordOfFields imm psel opc) = psel := by
  apply BitVec.eq_of_toNat_eq
  rw [pselField_toNat, wordOfFields_toNat]
  have := opc.isLt
  have := psel.isLt
  omega

theorem rsvField_wordOfFields (imm : Int) (psel : BitVec 2) (opc : BitVec 8) :
    rsvField (wordOfFields imm psel opc) = 0 := by
  apply BitVec.eq_of_toNat_eq
  rw [rsvField_toNat, wordOfFields_toNat]
  have := opc.isLt
  have := psel.isLt
  rw [show BitVec.toNat (0 : BitVec 6) = 0 from rfl]
  omega

theorem immField_wordOfFields (imm : Int) (psel : BitVec 2) (opc : BitVec 8) :
    immField (wordOfFields imm psel opc) = BitVec.ofInt 16 imm := by
  apply BitVec.eq_of_toNat_eq
  rw [immField_toNat, wordOfFields_toNat]
  have := opc.isLt
  have := psel.isLt
  omega

/-- A word whose reserved field is 0 is assembled from its fields. -/
theorem wordOfFields_fields {w : Word} (h : rsvField w = 0) :
    wordOfFields (immField w).toInt (pselField w) (opcField w) = w := by
  apply BitVec.eq_of_toNat_eq
  have h0 := congrArg BitVec.toNat h
  have h1 := w.isLt
  rw [rsvField_toNat, show BitVec.toNat (0 : BitVec 6) = 0 from rfl] at h0
  rw [wordOfFields_toNat, BitVec.ofInt_toInt, immField_toNat, pselField_toNat, opcField_toNat]
  omega

/-! ## The immediate (R65) -/

theorem toInt_ofInt_of_immInRange {imm : Int} (h : immInRange imm = true) : (BitVec.ofInt 16 imm).toInt = imm := by
  simp only [immInRange, Bool.and_eq_true, decide_eq_true_eq] at h
  rw [BitVec.toInt_ofInt, Int.bmod_eq_of_le] <;> omega

theorem immInRange_toInt (imm : Imm16) : immInRange imm.toInt = true := by
  have h1 := BitVec.le_toInt imm
  have h2 := BitVec.toInt_lt (x := imm)
  simp only [immInRange, Bool.and_eq_true, decide_eq_true_eq]
  omega

/-! ## The register select (R64) -/

theorem polyRegOf_pselOf (r : PolyReg) : polyRegOf (pselOf r) = some r := by cases r <;> rfl

theorem loadRegOf_pselOf (d : LoadReg) : loadRegOf (pselOf d.toPolyReg) = some d := by cases d <;> rfl

theorem pselOf_of_polyRegOf {psel : BitVec 2} {r : PolyReg} (h : polyRegOf psel = some r) : pselOf r = psel := by
  cases r <;> revert psel <;> decide

theorem pselOf_of_loadRegOf {psel : BitVec 2} {d : LoadReg} (h : loadRegOf psel = some d) :
    pselOf d.toPolyReg = psel := by
  cases d <;> revert psel <;> decide

end Sys2Proof
end

