-- ==== Sys2Proof/Laws/Operands.lean ====
section
/-! SUPPORT. The payload forms: what each lets through, what each stops, and the two ways a command ends
(30_encoding.md R66 to R69; 60_exceptions.md R200). -/

namespace Sys2Proof.Machine

/-! ## Letting a payload through -/

theorem withNoPayload_none {s : State} (h : s.payload = .none) (k : Result) : withNoPayload s k = k := by
  simp [withNoPayload, h]

theorem withCoef_coef {s : State} {length : BitVec 32} {coeffs : List Bool} (h : s.payload = .coef length coeffs)
    (hw : coeffs.length = length.toInt.toNat) (k : Int → List Bool → Result) :
    withCoef s k = k length.toInt coeffs := by
  simp [withCoef, h, Payload.wf, hw]

theorem withInt_int {s : State} {v : BitVec s.cfg.cap} (h : s.payload = .int s.cfg.cap v) (k : Nat → Result) :
    withInt s k = k v.toNat := by
  simp [withInt, h]

theorem withPair_pair {s : State} {word : BitVec 32} (h : s.payload = .pair word) (k : Nat → Nat → Result) :
    withPair s k = k (word.toNat / 65536) (word.toNat % 65536) := by
  have h1 : (word.extractLsb' 16 16).toNat = word.toNat / 65536 := by
    rw [BitVec.extractLsb'_toNat, Nat.shiftRight_eq_div_pow]
    have := word.isLt
    omega
  have h2 : (word.extractLsb' 0 16).toNat = word.toNat % 65536 := by
    rw [BitVec.extractLsb'_toNat, Nat.shiftRight_zero]
  simp [withPair, h, h1, h2]

/-! ## What a form that answers has seen -/

theorem withNoPayload_next {s t : State} {k : Result} (h : withNoPayload s k = .next t) :
    s.payload = .none ∧ k = .next t := by
  unfold withNoPayload at h
  split at h
  · exact ⟨‹_›, h⟩
  all_goals cases h

theorem withCoef_next {s t : State} {k : Int → List Bool → Result} (h : withCoef s k = .next t) :
    ∃ length coeffs, s.payload = .coef length coeffs ∧ coeffs.length = length.toInt.toNat ∧
      k length.toInt coeffs = .next t := by
  unfold withCoef at h
  split at h
  · cases h
  · split at h
    · rename_i length coeffs hp hw
      exact ⟨length, coeffs, hp, by simpa [Payload.wf] using hw, h⟩
    · cases h
  all_goals cases h

theorem withInt_next {s t : State} {k : Nat → Result} (h : withInt s k = .next t) :
    ∃ v : BitVec s.cfg.cap, s.payload = .int s.cfg.cap v ∧ k v.toNat = .next t := by
  unfold withInt at h
  split at h
  · cases h
  · cases h
  · split at h
    · rename_i width value hp hw
      subst hw
      exact ⟨value, hp, h⟩
    · cases h
  · cases h

theorem withPair_next {s t : State} {k : Nat → Nat → Result} (h : withPair s k = .next t) :
    ∃ word, s.payload = .pair word ∧ k (word.toNat / 65536) (word.toNat % 65536) = .next t := by
  have h0 := h
  unfold withPair at h
  split at h
  · cases h
  · cases h
  · cases h
  · exact ⟨_, ‹_›, by rwa [withPair_pair ‹_›] at h0⟩

/-! ## The two ends -/

theorem respond_next {p : ResponsePayload} {s t : State} (h : respond p s = .next t) : t = s.finish ⟨.ok, p⟩ := by
  simpa [respond, eq_comm] using h

theorem raise_next {st : Status} {s t : State} (h : raise st s = .next t) : t = s.finish ⟨st, .none⟩ := by
  simpa [raise, eq_comm] using h

end Sys2Proof.Machine
end

