-- ==== Sys2Proof/Laws/State.lean ====
section
/-! SUPPORT. One lemma per field and update: no later proof unfolds a record update. -/

namespace Sys2Proof.Machine

variable (s : State)

/-! ## finish -/

@[simp] theorem finish_cfg (r : Response) : (s.finish r).cfg = s.cfg := rfl
@[simp] theorem finish_pa (r : Response) : (s.finish r).pa = s.pa := rfl
@[simp] theorem finish_pb (r : Response) : (s.finish r).pb = s.pb := rfl
@[simp] theorem finish_pr (r : Response) : (s.finish r).pr = s.pr := rfl
@[simp] theorem finish_table (r : Response) : (s.finish r).table = s.table := rfl
@[simp] theorem finish_inputs (r : Response) : (s.finish r).inputs = s.inputs := rfl
@[simp] theorem finish_payload (r : Response) : (s.finish r).payload = .none := rfl
@[simp] theorem finish_responses (r : Response) : (s.finish r).responses = s.responses ++ [r] := rfl
@[simp] theorem finish_poly (r : Response) (p : PolyReg) : (s.finish r).poly p = s.poly p := by cases p <;> rfl

/-! ## setOperand -/

@[simp] theorem setOperand_cfg (d : LoadReg) (v : Nat) : (s.setOperand d v).cfg = s.cfg := by cases d <;> rfl
@[simp] theorem setOperand_table (d : LoadReg) (v : Nat) : (s.setOperand d v).table = s.table := by cases d <;> rfl
@[simp] theorem setOperand_inputs (d : LoadReg) (v : Nat) : (s.setOperand d v).inputs = s.inputs := by cases d <;> rfl
@[simp] theorem setOperand_payload (d : LoadReg) (v : Nat) : (s.setOperand d v).payload = s.payload := by cases d <;> rfl
@[simp] theorem setOperand_responses (d : LoadReg) (v : Nat) : (s.setOperand d v).responses = s.responses := by
  cases d <;> rfl
@[simp] theorem setOperand_pr (d : LoadReg) (v : Nat) : (s.setOperand d v).poly .pr = s.poly .pr := by cases d <;> rfl

/-- A value that fits its register reads back (R16). -/
theorem setOperand_poly_self (d : LoadReg) {v : Nat} (h : v < 2 ^ s.cfg.cap) :
    (s.setOperand d v).poly d.toPolyReg = v := by
  cases d <;> exact (BitVec.toNat_ofNat v _).trans (Nat.mod_eq_of_lt h)

theorem setOperand_poly_other (d : LoadReg) (v : Nat) {r : PolyReg} (h : r ≠ d.toPolyReg) :
    (s.setOperand d v).poly r = s.poly r := by
  cases d <;> cases r <;> first | rfl | exact absurd rfl h

/-! ## setProduct -/

@[simp] theorem setProduct_cfg (v : Nat) : (s.setProduct v).cfg = s.cfg := rfl
@[simp] theorem setProduct_pa (v : Nat) : (s.setProduct v).pa = s.pa := rfl
@[simp] theorem setProduct_pb (v : Nat) : (s.setProduct v).pb = s.pb := rfl
@[simp] theorem setProduct_poly_pa (v : Nat) : (s.setProduct v).poly .pa = s.poly .pa := rfl
@[simp] theorem setProduct_poly_pb (v : Nat) : (s.setProduct v).poly .pb = s.poly .pb := rfl
@[simp] theorem setProduct_table (v : Nat) : (s.setProduct v).table = s.table := rfl
@[simp] theorem setProduct_inputs (v : Nat) : (s.setProduct v).inputs = s.inputs := rfl
@[simp] theorem setProduct_payload (v : Nat) : (s.setProduct v).payload = s.payload := rfl
@[simp] theorem setProduct_responses (v : Nat) : (s.setProduct v).responses = s.responses := rfl

/-- A product that fits PR reads back (R22). -/
theorem setProduct_poly_pr {v : Nat} (h : v < 2 ^ s.cfg.rcap) : (s.setProduct v).poly .pr = v :=
  (BitVec.toNat_ofNat v _).trans (Nat.mod_eq_of_lt h)

/-! ## buildTable, dropTable -/

@[simp] theorem buildTable_cfg (m : Nat) : (s.buildTable m).cfg = s.cfg := rfl
@[simp] theorem buildTable_poly (m : Nat) (r : PolyReg) : (s.buildTable m).poly r = s.poly r := by cases r <;> rfl
@[simp] theorem buildTable_table (m : Nat) : (s.buildTable m).table = some (builtTable m) := rfl
@[simp] theorem buildTable_inputs (m : Nat) : (s.buildTable m).inputs = s.inputs := rfl
@[simp] theorem buildTable_payload (m : Nat) : (s.buildTable m).payload = s.payload := rfl
@[simp] theorem buildTable_responses (m : Nat) : (s.buildTable m).responses = s.responses := rfl
@[simp] theorem dropTable_cfg : s.dropTable.cfg = s.cfg := rfl
@[simp] theorem dropTable_poly (r : PolyReg) : s.dropTable.poly r = s.poly r := by cases r <;> rfl
@[simp] theorem dropTable_table : s.dropTable.table = none := rfl
@[simp] theorem dropTable_inputs : s.dropTable.inputs = s.inputs := rfl
@[simp] theorem dropTable_payload : s.dropTable.payload = s.payload := rfl
@[simp] theorem dropTable_responses : s.dropTable.responses = s.responses := rfl

/-! ## accept, applyReset -/

@[simp] theorem accept_cfg (rest : List Input) (p : Payload) : (s.accept rest p).cfg = s.cfg := rfl
@[simp] theorem accept_poly (rest : List Input) (p : Payload) (r : PolyReg) : (s.accept rest p).poly r = s.poly r := by
  cases r <;> rfl
@[simp] theorem accept_table (rest : List Input) (p : Payload) : (s.accept rest p).table = s.table := rfl
@[simp] theorem accept_inputs (rest : List Input) (p : Payload) : (s.accept rest p).inputs = rest := rfl
@[simp] theorem accept_payload (rest : List Input) (p : Payload) : (s.accept rest p).payload = p := rfl
@[simp] theorem accept_responses (rest : List Input) (p : Payload) : (s.accept rest p).responses = s.responses := rfl
@[simp] theorem applyReset_cfg (rest : List Input) : (s.applyReset rest).cfg = s.cfg := rfl
@[simp] theorem applyReset_table (rest : List Input) : (s.applyReset rest).table = none := rfl
@[simp] theorem applyReset_inputs (rest : List Input) : (s.applyReset rest).inputs = rest := rfl
@[simp] theorem applyReset_payload (rest : List Input) : (s.applyReset rest).payload = .none := rfl
@[simp] theorem applyReset_responses (rest : List Input) : (s.applyReset rest).responses = s.responses := rfl

/-! ## Register values -/

theorem poly_lt (r : PolyReg) : s.poly r < 2 ^ regWidth s.cfg r := by
  cases r <;> exact BitVec.isLt _

theorem poly_pa_lt : s.poly .pa < 2 ^ s.cfg.cap := s.pa.isLt

theorem poly_pb_lt : s.poly .pb < 2 ^ s.cfg.cap := s.pb.isLt

theorem zeroOperand_iff : s.zeroOperand = true ↔ s.poly .pa = 0 ∨ s.poly .pb = 0 := by
  simp [State.zeroOperand]

end Sys2Proof.Machine
end

