-- ==== Sys2Proof/Laws/Exec.lean ====
section
/-! SUPPORT. One inversion lemma per instruction: when it answers a next state, which of its cases that is, with the
condition of the case. Later proofs cite these instead of unfolding a meaning. -/

namespace Sys2Proof.Machine

variable {s t : State}

theorem execLdc_next {d : LoadReg} (h : execLdc d s = .next t) :
    ∃ length coeffs, s.payload = .coef length coeffs ∧ coeffs.length = length.toInt.toNat ∧
      ((length.toInt < 0 ∧ t = s.finish ⟨.invalidDegree, .none⟩) ∨
        ((s.cfg.cap : Int) < length.toInt ∧ t = s.finish ⟨.capacityExceeded, .none⟩) ∨
        (0 ≤ length.toInt ∧ length.toInt ≤ s.cfg.cap ∧
          t = (s.setOperand d (toInteger coeffs)).finish ⟨.ok, .none⟩)) := by
  obtain ⟨length, coeffs, hp, hw, h⟩ := withCoef_next h
  refine ⟨length, coeffs, hp, hw, ?_⟩
  split at h
  · exact .inl ⟨‹_›, raise_next h⟩
  · split at h
    · exact .inr (.inl ⟨‹_›, raise_next h⟩)
    · exact .inr (.inr ⟨by omega, by omega, respond_next h⟩)

theorem execLdi_next {d : LoadReg} (h : execLdi d s = .next t) :
    ∃ v : BitVec s.cfg.cap, s.payload = .int s.cfg.cap v ∧ t = (s.setOperand d v.toNat).finish ⟨.ok, .none⟩ := by
  obtain ⟨v, hp, h⟩ := withInt_next h
  exact ⟨v, hp, respond_next h⟩

theorem execStc_next {r : PolyReg} (h : execStc r s = .next t) :
    s.payload = .none ∧
      t = s.finish ⟨.ok, .coef (BitVec.ofNat 32 (len (s.poly r))) (toCoefficients (s.poly r))⟩ :=
  (withNoPayload_next h).imp id respond_next

theorem execSti_next {r : PolyReg} (h : execSti r s = .next t) :
    s.payload = .none ∧
      t = s.finish ⟨.ok, .int (regWidth s.cfg r) (BitVec.ofNat (regWidth s.cfg r) (s.poly r))⟩ :=
  (withNoPayload_next h).imp id respond_next

theorem execDeg_next {r : PolyReg} (h : execDeg r s = .next t) :
    s.payload = .none ∧ t = s.finish ⟨.ok, .deg (BitVec.ofInt 32 (deg (s.poly r)))⟩ :=
  (withNoPayload_next h).imp id respond_next

theorem execCoef_next {r : PolyReg} {idx : Int} (h : execCoef r idx s = .next t) :
    s.payload = .none ∧
      ((idx < 0 ∧ t = s.finish ⟨.indexRejected, .none⟩) ∨
        (0 ≤ idx ∧ t = s.finish ⟨.ok, .bit ((s.poly r).testBit idx.toNat)⟩)) := by
  obtain ⟨hp, h⟩ := withNoPayload_next h
  refine ⟨hp, ?_⟩
  split at h
  · exact .inl ⟨‹_›, raise_next h⟩
  · exact .inr ⟨by omega, respond_next h⟩

theorem execMuln_next (h : execMuln s = .next t) :
    s.payload = .none ∧
      ((s.zeroOperand = true ∧ t = (s.setProduct 0).finish ⟨.ok, .none⟩) ∨
        (s.zeroOperand = false ∧
          t = (s.setProduct (shiftLoop s.cfg.cap s.shiftStart).acc.toNat).finish ⟨.ok, .none⟩)) := by
  obtain ⟨hp, h⟩ := withNoPayload_next h
  refine ⟨hp, ?_⟩
  split at h
  · exact .inl ⟨‹_›, respond_next h⟩
  · exact .inr ⟨Bool.eq_false_iff.mpr ‹_›, respond_next h⟩

theorem execMulb_next {m : Int} (h : execMulb m s = .next t) :
    s.payload = .none ∧
      ((badBlockSize s.cfg m = true ∧ t = s.finish ⟨.configurationError, .none⟩) ∨
        (badBlockSize s.cfg m = false ∧ s.zeroOperand = true ∧ t = (s.setProduct 0).finish ⟨.ok, .none⟩) ∨
        (badBlockSize s.cfg m = false ∧ s.zeroOperand = false ∧
          ∃ r, blockCoefficients (s.ensuredTable m.toNat) m.toNat (s.poly .pa) (s.poly .pb) (deg (s.poly .pa)).toNat
              (deg (s.poly .pb)).toNat ((deg (s.poly .pa)).toNat + (deg (s.poly .pb)).toNat + 1) = .ok r ∧
            t = ({ s with table := some (s.ensuredTable m.toNat) }.setProduct r).finish ⟨.ok, .none⟩)) := by
  obtain ⟨hp, h⟩ := withNoPayload_next h
  refine ⟨hp, ?_⟩
  split at h
  · exact .inl ⟨‹_›, raise_next h⟩
  · split at h
    · exact .inr (.inl ⟨Bool.eq_false_iff.mpr ‹_›, ‹_›, respond_next h⟩)
    · split at h
      · cases h
      · exact .inr (.inr ⟨Bool.eq_false_iff.mpr ‹_›, Bool.eq_false_iff.mpr ‹_›,
          _, ‹_›, respond_next h⟩)

theorem execMulc_next {w : Int} (h : execMulc w s = .next t) :
    s.payload = .none ∧
      ((badWordSize s.cfg w = true ∧ t = s.finish ⟨.configurationError, .none⟩) ∨
        (badWordSize s.cfg w = false ∧ s.zeroOperand = true ∧ t = (s.setProduct 0).finish ⟨.ok, .none⟩) ∨
        (badWordSize s.cfg w = false ∧ s.zeroOperand = false ∧
          t = (s.setProduct (chunkedProduct w.toNat (s.poly .pa) (s.poly .pb) (deg (s.poly .pa)).toNat
            (deg (s.poly .pb)).toNat)).finish ⟨.ok, .none⟩)) := by
  obtain ⟨hp, h⟩ := withNoPayload_next h
  refine ⟨hp, ?_⟩
  split at h
  · exact .inl ⟨‹_›, raise_next h⟩
  · split at h
    · exact .inr (.inl ⟨Bool.eq_false_iff.mpr ‹_›, ‹_›, respond_next h⟩)
    · exact .inr (.inr ⟨Bool.eq_false_iff.mpr ‹_›, Bool.eq_false_iff.mpr ‹_›,
        respond_next h⟩)

theorem execTbld_next {m : Int} (h : execTbld m s = .next t) :
    s.payload = .none ∧
      ((badBlockSize s.cfg m = true ∧ t = s.finish ⟨.configurationError, .none⟩) ∨
        (badBlockSize s.cfg m = false ∧ t = (s.buildTable m.toNat).finish ⟨.ok, .none⟩)) := by
  obtain ⟨hp, h⟩ := withNoPayload_next h
  refine ⟨hp, ?_⟩
  split at h
  · exact .inl ⟨‹_›, raise_next h⟩
  · exact .inr ⟨Bool.eq_false_iff.mpr ‹_›, respond_next h⟩

theorem execTblq_next (h : execTblq s = .next t) :
    ∃ word, s.payload = .pair word ∧
      ((s.table = none ∧ t = s.finish ⟨.tableNotBuilt, .none⟩) ∨
        ∃ tb, s.table = some tb ∧
          ((2 ^ tb.m.toNat ≤ word.toNat / 65536 ∨ 2 ^ tb.m.toNat ≤ word.toNat % 65536) ∧
              t = s.finish ⟨.indexRejected, .none⟩ ∨
            (word.toNat / 65536 < 2 ^ tb.m.toNat ∧ word.toNat % 65536 < 2 ^ tb.m.toNat ∧
              ∃ v, tb.read (tableIndex tb.m.toNat (word.toNat / 65536) (word.toNat % 65536)) = .ok v ∧
                t = s.finish ⟨.ok, .bit v⟩))) := by
  obtain ⟨word, hp, h⟩ := withPair_next h
  refine ⟨word, hp, ?_⟩
  split at h
  · exact .inl ⟨‹_›, raise_next h⟩
  · rename_i tb htb
    refine .inr ⟨tb, htb, ?_⟩
    split at h
    · exact .inl ⟨‹_›, raise_next h⟩
    · rename_i hlt
      rw [not_or, Nat.not_le, Nat.not_le] at hlt
      split at h
      · exact .inr ⟨hlt.1, hlt.2, _, ‹_›, respond_next h⟩
      · cases h

theorem execTblx_next (h : execTblx s = .next t) : s.payload = .none ∧ t = s.dropTable.finish ⟨.ok, .none⟩ :=
  (withNoPayload_next h).imp id respond_next

/-- Every command that answers has given exactly one response, with the parameters and the host's list as they were, and
left no payload (R48, R60). -/
theorem exec_gives_one_response {i : Instr} (h : exec i s = .next t) :
    ∃ r, t.cfg = s.cfg ∧ t.inputs = s.inputs ∧ t.payload = .none ∧ t.responses = s.responses ++ [r] := by
  cases i with
  | ldc d => obtain ⟨_, _, _, _, ⟨_, rfl⟩ | ⟨_, rfl⟩ | ⟨_, _, rfl⟩⟩ := execLdc_next h <;> cases d <;> exact ⟨_, rfl, rfl, rfl, rfl⟩
  | ldi d => obtain ⟨_, _, rfl⟩ := execLdi_next h; cases d <;> exact ⟨_, rfl, rfl, rfl, rfl⟩
  | stc r => obtain ⟨_, rfl⟩ := execStc_next h; exact ⟨_, rfl, rfl, rfl, rfl⟩
  | sti r => obtain ⟨_, rfl⟩ := execSti_next h; exact ⟨_, rfl, rfl, rfl, rfl⟩
  | deg r => obtain ⟨_, rfl⟩ := execDeg_next h; exact ⟨_, rfl, rfl, rfl, rfl⟩
  | coef r idx => obtain ⟨_, ⟨_, rfl⟩ | ⟨_, rfl⟩⟩ := execCoef_next h <;> exact ⟨_, rfl, rfl, rfl, rfl⟩
  | muln => obtain ⟨_, ⟨_, rfl⟩ | ⟨_, rfl⟩⟩ := execMuln_next h <;> exact ⟨_, rfl, rfl, rfl, rfl⟩
  | mulb m => obtain ⟨_, ⟨_, rfl⟩ | ⟨_, _, rfl⟩ | ⟨_, _, _, _, rfl⟩⟩ := execMulb_next h <;> exact ⟨_, rfl, rfl, rfl, rfl⟩
  | mulc w => obtain ⟨_, ⟨_, rfl⟩ | ⟨_, _, rfl⟩ | ⟨_, _, rfl⟩⟩ := execMulc_next h <;> exact ⟨_, rfl, rfl, rfl, rfl⟩
  | tbld m => obtain ⟨_, ⟨_, rfl⟩ | ⟨_, rfl⟩⟩ := execTbld_next h <;> exact ⟨_, rfl, rfl, rfl, rfl⟩
  | tblq => obtain ⟨_, _, ⟨_, rfl⟩ | ⟨_, _, ⟨_, rfl⟩ | ⟨_, _, _, _, rfl⟩⟩⟩ := execTblq_next h <;> exact ⟨_, rfl, rfl, rfl, rfl⟩
  | tblx => obtain ⟨_, rfl⟩ := execTblx_next h; exact ⟨_, rfl, rfl, rfl, rfl⟩

end Sys2Proof.Machine
end

