-- ==== Sys2Proof/Laws/Poly.lean ====
section
/-! SUPPORT. What the polynomial functions do: bits of an assembled integer, XOR sums, degree, parity, the codec, and
the coefficients of the reference product (00_scope.md R9 to R15; 40_representation.md R91 to R93). -/

namespace Sys2Proof.Machine

/-! ## Integers assembled from bits -/

theorem natOfBits_lt (n : Nat) (f : Nat → Bool) : natOfBits n f < 2 ^ n := by
  induction n with
  | zero => simp [natOfBits]
  | succ n ih =>
    have h : (f n).toNat * 2 ^ n ≤ 2 ^ n := by cases f n <;> simp
    rw [natOfBits, Nat.pow_succ]
    omega

theorem testBit_natOfBits (n : Nat) (f : Nat → Bool) (k : Nat) :
    (natOfBits n f).testBit k = (decide (k < n) && f k) := by
  induction n with
  | zero => simp [natOfBits]
  | succ n ih =>
    have e : natOfBits (n + 1) f = 2 ^ n * (f n).toNat + natOfBits n f := by
      rw [natOfBits]; ring
    rw [e, Nat.testBit_two_pow_mul_add _ (natOfBits_lt n f)]
    rcases Nat.lt_trichotomy k n with h | h | h
    · simp [h, ih, Nat.lt_succ_of_lt h]
    · subst h
      cases f k <;> simp
    · have h1 : ¬ k < n := by omega
      have h2 : ¬ k < n + 1 := by omega
      have h3 : Nat.testBit 1 (k - n) = false := Nat.testBit_lt_two_pow (Nat.one_lt_two_pow (by omega))
      cases f n <;> simp [h1, h2, h3]

theorem natOfBits_congr {n : Nat} {f g : Nat → Bool} (h : ∀ k < n, f k = g k) : natOfBits n f = natOfBits n g := by
  induction n with
  | zero => rfl
  | succ n ih => simp [natOfBits, ih fun k hk => h k (by omega), h n (by omega)]

/-- An integer is assembled from its own bits. -/
theorem natOfBits_testBit {n x : Nat} (h : x < 2 ^ n) : natOfBits n x.testBit = x := by
  apply Nat.eq_of_testBit_eq
  intro k
  rw [testBit_natOfBits]
  by_cases hk : k < n
  · simp [hk]
  · have : x.testBit k = false := Nat.testBit_lt_two_pow (lt_of_lt_of_le h (Nat.pow_le_pow_right (by omega) (by omega)))
    simp [this]

/-! ## XOR sums -/

theorem xorSum_congr {n : Nat} {f g : Nat → Bool} (h : ∀ k < n, f k = g k) : xorSum n f = xorSum n g := by
  induction n with
  | zero => rfl
  | succ n ih => simp [xorSum, ih fun k hk => h k (by omega), h n (by omega)]

theorem xorSum_eq_false {n : Nat} {f : Nat → Bool} (h : ∀ k < n, f k = false) : xorSum n f = false := by
  induction n with
  | zero => rfl
  | succ n ih => simp [xorSum, ih fun k hk => h k (by omega), h n (by omega)]

theorem xorSum_xor (n : Nat) (f g : Nat → Bool) : xorSum n (fun k => f k ^^ g k) = (xorSum n f ^^ xorSum n g) := by
  induction n with
  | zero => rfl
  | succ n ih =>
    simp only [xorSum, ih]
    cases xorSum n f <;> cases xorSum n g <;> cases f n <;> cases g n <;> rfl

theorem xorSum_add (m n : Nat) (f : Nat → Bool) :
    xorSum (m + n) f = (xorSum m f ^^ xorSum n fun k => f (m + k)) := by
  induction n with
  | zero => simp [xorSum]
  | succ n ih => rw [← Nat.add_assoc, xorSum, ih, xorSum, Bool.xor_assoc]

theorem xorSum_and (n : Nat) (c : Bool) (f : Nat → Bool) : xorSum n (fun k => c && f k) = (c && xorSum n f) := by
  cases c
  · simpa using xorSum_eq_false (n := n) (f := fun _ => false) fun _ _ => rfl
  · simp

/-- A sum with one term that can be 1. -/
theorem xorSum_single {n p : Nat} (hp : p < n) {f : Nat → Bool} (h : ∀ k < n, k ≠ p → f k = false) :
    xorSum n f = f p := by
  induction n with
  | zero => omega
  | succ n ih =>
    by_cases e : p = n
    · subst e
      have h0 : xorSum p f = false := xorSum_eq_false fun k hk => h k (by omega) (by omega)
      simp [xorSum, h0]
    · simp [xorSum, ih (by omega) fun k hk => h k (by omega), h n (by omega) (Ne.symm e)]

/-- Terms that are 0 from `m` on may be left out. -/
theorem xorSum_trim {m n : Nat} (hmn : m ≤ n) {f : Nat → Bool} (h : ∀ k < n, m ≤ k → f k = false) :
    xorSum n f = xorSum m f := by
  obtain ⟨d, rfl⟩ := Nat.exists_eq_add_of_le hmn
  rw [xorSum_add, xorSum_eq_false (n := d) fun k hk => h (m + k) (by omega) (by omega), Bool.xor_false]

/-- The order of a double sum is free (20_memory.md R49). -/
theorem xorSum_comm (m n : Nat) (f : Nat → Nat → Bool) :
    xorSum m (fun i => xorSum n fun j => f i j) = xorSum n fun j => xorSum m fun i => f i j := by
  induction m with
  | zero => simpa [xorSum] using (xorSum_eq_false (n := n) (f := fun _ => false) fun _ _ => rfl).symm
  | succ m ih => simp only [xorSum, ih, xorSum_xor]

/-- A sum taken from the other end. -/
theorem xorSum_reverse (n : Nat) (f : Nat → Bool) : xorSum (n + 1) (fun k => f (n - k)) = xorSum (n + 1) f := by
  induction n with
  | zero => rfl
  | succ n ih =>
    have h1 : xorSum (1 + (n + 1)) (fun k => f (n + 1 - k)) = (f (n + 1) ^^ xorSum (n + 1) f) := by
      rw [xorSum_add, ← ih]
      congr 1
      · simp [xorSum]
      · exact xorSum_congr fun k _ => by congr 1; omega
    rw [Nat.add_comm (n + 1) 1, h1, Nat.add_comm 1 (n + 1), Bool.xor_comm]
    rfl

/-! ## Degree and length -/

theorem len_zero : len 0 = 0 := rfl

theorem len_of_ne_zero {x : Nat} (h : x ≠ 0) : len x = Nat.log2 x + 1 := by
  simp only [len, deg, h, if_false]
  omega

theorem deg_toNat_of_ne_zero {x : Nat} (h : x ≠ 0) : (deg x).toNat + 1 = len x := by
  simp [len_of_ne_zero h, deg, h]

/-- The coefficient at the degree is 1 (10_state.md R23). -/
theorem testBit_deg {x : Nat} (h : x ≠ 0) : x.testBit (deg x).toNat = true := by
  simpa [deg, h] using Nat.testBit_log2 h

theorem lt_two_pow_len (x : Nat) : x < 2 ^ len x := by
  by_cases h : x = 0
  · simp [h, len_zero]
  · rw [len_of_ne_zero h]
    exact Nat.lt_log2_self

/-- No coefficient above the degree is 1 (00_scope.md R12). -/
theorem testBit_of_len_le {x k : Nat} (h : len x ≤ k) : x.testBit k = false :=
  Nat.testBit_lt_two_pow (lt_of_lt_of_le (lt_two_pow_len x) (Nat.pow_le_pow_right (by omega) h))

theorem len_le_of_lt_two_pow {x n : Nat} (h : x < 2 ^ n) : len x ≤ n := by
  by_cases h0 : x = 0
  · simp [h0, len_zero]
  · rw [len_of_ne_zero h0]
    exact (Nat.log2_lt h0).mpr h

/-- The degree is the only index with its two properties. -/
theorem deg_eq_of {x d : Nat} (h1 : x.testBit d = true) (h2 : ∀ k, d < k → x.testBit k = false) : deg x = d := by
  have h0 : x ≠ 0 := by
    rintro rfl
    simp at h1
  have h3 := testBit_deg h0
  have h4 := @testBit_of_len_le x
  have h5 := deg_toNat_of_ne_zero h0
  have h6 : (0 : Int) ≤ deg x := by simp [deg, h0]
  rcases Nat.lt_trichotomy (deg x).toNat d with h | h | h
  · exact absurd (h4 (show len x ≤ d by omega)) (by simp [h1])
  · omega
  · exact absurd (h2 _ h) (by simp [h3])

/-! ## Parity -/

theorem countOnes_parity (n : Nat) (f : Nat → Bool) : (countOnes n f % 2 == 1) = xorSum n f := by
  induction n with
  | zero => rfl
  | succ n ih =>
    rw [countOnes, xorSum, ← ih]
    rcases Nat.mod_two_eq_zero_or_one (countOnes n f) with h | h <;> cases f n <;> simp [Nat.add_mod, h]

/-- Parity is the XOR of the bits, over any range that holds them all (R11). -/
theorem parity_eq_xorSum {x n : Nat} (h : x < 2 ^ n) : parity x = xorSum n x.testBit := by
  rw [parity, popcount, countOnes_parity]
  exact (xorSum_trim (len_le_of_lt_two_pow h) fun k _ hk => testBit_of_len_le hk).symm

theorem parity_zero : parity 0 = false := rfl

/-- parity(x ^ y) = parity(x) ^ parity(y) (R11). -/
theorem parity_xor (x y : Nat) : parity (x ^^^ y) = (parity x ^^ parity y) := by
  obtain ⟨n, hx, hy⟩ : ∃ n, x < 2 ^ n ∧ y < 2 ^ n :=
    ⟨max (len x) (len y), lt_of_lt_of_le (lt_two_pow_len x) (Nat.pow_le_pow_right (by omega) (le_max_left _ _)),
      lt_of_lt_of_le (lt_two_pow_len y) (Nat.pow_le_pow_right (by omega) (le_max_right _ _))⟩
  rw [parity_eq_xorSum (Nat.xor_lt_two_pow hx hy), parity_eq_xorSum hx, parity_eq_xorSum hy, ← xorSum_xor]
  exact xorSum_congr fun k _ => Nat.testBit_xor x y k

theorem parity_natOfBits (n : Nat) (f : Nat → Bool) : parity (natOfBits n f) = xorSum n f := by
  rw [parity_eq_xorSum (natOfBits_lt n f)]
  exact xorSum_congr fun k hk => by simp [testBit_natOfBits, hk]

/-- The dot product of two assembled blocks is the XOR of their position products (R13). -/
theorem dot_natOfBits (n : Nat) (f g : Nat → Bool) :
    dot (natOfBits n f) (natOfBits n g) = xorSum n fun k => f k && g k := by
  have h : natOfBits n f &&& natOfBits n g < 2 ^ n := lt_of_le_of_lt Nat.and_le_left (natOfBits_lt n f)
  rw [dot, parity_eq_xorSum h]
  exact xorSum_congr fun k hk => by simp [testBit_natOfBits, hk]

/-! ## The codec -/

theorem testBit_toInteger (c : List Bool) (k : Nat) : (toInteger c).testBit k = c.getD k false := by
  induction c generalizing k with
  | nil => simp [toInteger]
  | cons b c ih =>
    cases k with
    | zero => cases b <;> simp [toInteger, Nat.add_mod]
    | succ k =>
      rw [toInteger, Nat.testBit_succ]
      have : (b.toNat + 2 * toInteger c) / 2 = toInteger c := by cases b <;> simp; omega
      rw [this, ih]
      simp

theorem toInteger_lt (c : List Bool) : toInteger c < 2 ^ c.length := by
  induction c with
  | nil => simp [toInteger]
  | cons b c ih =>
    rw [toInteger, List.length_cons, Nat.pow_succ]
    cases b <;> simp <;> omega

theorem toCoefficients_length (x : Nat) : (toCoefficients x).length = len x := by simp [toCoefficients]

theorem toCoefficients_getD (x k : Nat) : (toCoefficients x).getD k false = x.testBit k := by
  by_cases h : k < len x
  · simp [toCoefficients, List.getD, h]
  · rw [testBit_of_len_le (by omega)]
    simp [toCoefficients, List.getD, h]

/-! ## The reference product -/

/-- Coefficient k of the reference product, as one sum over the index range 0..k. -/
theorem clmulBit_eq (a b k : Nat) :
    clmulBit a b k = xorSum (k + 1) fun i => a.testBit i && b.testBit (k - i) := by
  have inner : ∀ i, (xorSum (len b) fun j => decide (i + j = k) && (a.testBit i && b.testBit j)) =
      (decide (i ≤ k) && (a.testBit i && b.testBit (k - i))) := by
    intro i
    by_cases hik : i ≤ k
    · by_cases hb : k - i < len b
      · rw [xorSum_single hb]
        · simp [hik]
        · intro j _ hj
          have : i + j ≠ k := by omega
          simp [this]
      · rw [testBit_of_len_le (x := b) (k := k - i) (by omega), xorSum_eq_false]
        · simp
        · intro j hj
          have : i + j ≠ k := by omega
          simp [this]
    · rw [xorSum_eq_false]
      · simp [hik]
      · intro j _
        have : i + j ≠ k := by omega
        simp [this]
  rw [clmulBit, xorSum_congr fun i _ => inner i]
  have h1 : xorSum (len a + (k + 1)) (fun i => decide (i ≤ k) && (a.testBit i && b.testBit (k - i))) =
      xorSum (len a) fun i => decide (i ≤ k) && (a.testBit i && b.testBit (k - i)) :=
    xorSum_trim (by omega) fun i _ hi => by simp [testBit_of_len_le (x := a) hi]
  have h2 : xorSum (len a + (k + 1)) (fun i => decide (i ≤ k) && (a.testBit i && b.testBit (k - i))) =
      xorSum (k + 1) fun i => decide (i ≤ k) && (a.testBit i && b.testBit (k - i)) :=
    xorSum_trim (by omega) fun i _ hi => by
      have : ¬ i ≤ k := by omega
      simp [this]
  rw [← h1, h2]
  exact xorSum_congr fun i hi => by
    have : i ≤ k := by omega
    simp [this]

/-- Above deg(a) + deg(b) no pair exists (R14). -/
theorem clmulBit_above {a b k : Nat} (h : len a + len b - 1 ≤ k) : clmulBit a b k = false := by
  rw [clmulBit_eq]
  refine xorSum_eq_false fun i hi => ?_
  by_cases ha : len a ≤ i
  · simp [testBit_of_len_le ha]
  · rw [testBit_of_len_le (x := b) (k := k - i) (by omega)]
    simp

theorem testBit_clmul (a b k : Nat) : (clmul a b).testBit k = clmulBit a b k := by
  rw [clmul, testBit_natOfBits]
  by_cases h : k < len a + len b - 1
  · simp [h]
  · simp [h, clmulBit_above (Nat.le_of_not_lt h)]

/-- The product of two polynomials below x^n has no coefficient at or above 2n - 1 (10_state.md R22). -/
theorem clmul_lt {a b n : Nat} (ha : a < 2 ^ n) (hb : b < 2 ^ n) : clmul a b < 2 ^ (2 * n - 1) := by
  have h1 := len_le_of_lt_two_pow ha
  have h2 := len_le_of_lt_two_pow hb
  exact lt_of_lt_of_le (natOfBits_lt _ _) (Nat.pow_le_pow_right (by omega) (by omega))

theorem clmul_zero_left (b : Nat) : clmul 0 b = 0 := by
  apply Nat.eq_of_testBit_eq
  intro k
  rw [testBit_clmul, clmulBit_eq, xorSum_eq_false fun i _ => by simp]
  simp

theorem clmul_zero_right (a : Nat) : clmul a 0 = 0 := by
  apply Nat.eq_of_testBit_eq
  intro k
  rw [testBit_clmul, clmulBit_eq, xorSum_eq_false fun i _ => by simp]
  simp

/-- Coefficient k as the sum over the range start_i(k)..end_i(k) (R15). -/
theorem clmulBit_range {a b k : Nat} (ha : a ≠ 0) (hb : b ≠ 0) (hk : k < len a + len b - 1) :
    clmulBit a b k =
      xorSum (endI (deg a).toNat k - startI (deg b).toNat k + 1) fun t =>
        a.testBit (startI (deg b).toNat k + t) && b.testBit (k - (startI (deg b).toNat k + t)) := by
  have h1 := deg_toNat_of_ne_zero ha
  have h2 := deg_toNat_of_ne_zero hb
  have e : k + 1 = startI (deg b).toNat k + ((endI (deg a).toNat k - startI (deg b).toNat k + 1) +
      (k - endI (deg a).toNat k)) := by
    simp only [startI, endI]
    omega
  rw [clmulBit_eq, e, xorSum_add, xorSum_add]
  rw [xorSum_eq_false (n := startI (deg b).toNat k), xorSum_eq_false (n := k - endI (deg a).toNat k)]
  · simp
  · intro t ht
    rw [testBit_of_len_le (x := a)]
    · simp
    · simp only [startI, endI] at *
      omega
  · intro t ht
    rw [testBit_of_len_le (x := b)]
    · simp
    · simp only [startI, endI] at *
      omega

end Sys2Proof.Machine
end

