-- ==== Sys2Proof/Laws/Table.lean ====
section
/-! SUPPORT. The table memory: reading after writing, the canonical form, and the content of a built table
(20_memory.md R40 to R42; 10_state.md R31; 42_block_table.md R122). -/

namespace Sys2Proof.Machine

/-! ## Reading, writing, canonical form -/

theorem Memory.read_write (mem : Memory) (idx : Nat) (v : Bool) (k : Nat) (h : Memory.wf mem) :
    Memory.read (Memory.write mem idx v) k = if k = idx then some v else Memory.read mem k := by
  induction mem with
  | nil => simp [Memory.write, Memory.read, eq_comm]
  | cons c rest ih =>
    obtain ⟨a, u⟩ := c
    have ih := ih (List.pairwise_cons.mp h).2
    simp only [Memory.write]
    split
    · by_cases hk : idx = k <;> simp [Memory.read, hk, eq_comm]
    · split
      · rename_i hlt he
        subst he
        by_cases hk : idx = k <;> simp [Memory.read, hk, eq_comm]
      · rename_i hlt hne
        by_cases hk : a = k
        · subst hk
          simp [Memory.read, Ne.symm hne]
        · simp [Memory.read, hk, ih]

theorem Memory.write_key (mem : Memory) (idx : Nat) (v : Bool) (c : Nat × Bool) (h : c ∈ Memory.write mem idx v) :
    c = (idx, v) ∨ c ∈ mem := by
  induction mem with
  | nil => simpa [Memory.write] using h
  | cons d rest ih =>
    obtain ⟨a, u⟩ := d
    simp only [Memory.write] at h
    split at h
    · simpa [or_assoc] using h
    · split at h
      · rcases List.mem_cons.mp h with h | h
        · exact .inl h
        · exact .inr (List.mem_cons_of_mem _ h)
      · rcases List.mem_cons.mp h with h | h
        · exact .inr (by simp [h])
        · rcases ih h with h | h
          · exact .inl h
          · exact .inr (List.mem_cons_of_mem _ h)

/-- A write keeps the canonical form. -/
theorem Memory.write_wf (mem : Memory) (idx : Nat) (v : Bool) (h : Memory.wf mem) :
    Memory.wf (Memory.write mem idx v) := by
  induction mem with
  | nil => simp [Memory.write, Memory.wf]
  | cons d rest ih =>
    obtain ⟨a, u⟩ := d
    obtain ⟨h1, h2⟩ := List.pairwise_cons.mp h
    simp only [Memory.write]
    split
    · rename_i hlt
      refine List.pairwise_cons.mpr ⟨fun c hc => ?_, h⟩
      rcases List.mem_cons.mp hc with hc | hc
      · simpa [hc] using hlt
      · exact lt_trans hlt (h1 c hc)
    · split
      · rename_i hlt he
        exact List.pairwise_cons.mpr ⟨fun c hc => by simpa [he] using h1 c hc, h2⟩
      · rename_i hlt hne
        refine List.pairwise_cons.mpr ⟨fun c hc => ?_, ih h2⟩
        rcases Memory.write_key _ _ _ _ hc with hc | hc
        · simp only [hc]
          omega
        · exact h1 c hc

/-- A canonical memory lists an entry exactly where it reads a value. -/
theorem Memory.read_eq_some_iff (mem : Memory) (h : Memory.wf mem) (idx : Nat) (v : Bool) :
    Memory.read mem idx = some v ↔ (idx, v) ∈ mem := by
  induction mem with
  | nil => simp [Memory.read]
  | cons d rest ih =>
    obtain ⟨a, u⟩ := d
    obtain ⟨h1, h2⟩ := List.pairwise_cons.mp h
    by_cases ha : a = idx
    · subst ha
      have : (a, v) ∉ rest := fun hm => lt_irrefl a (h1 _ hm)
      simp [Memory.read, this, eq_comm]
    · have : ¬ idx = a := Ne.symm ha
      simp [Memory.read, ha, ih h2, this]

/-- Two canonical memories that read alike are equal. -/
theorem Memory.ext_of_read {m1 m2 : Memory} (h1 : Memory.wf m1) (h2 : Memory.wf m2)
    (h : ∀ idx, Memory.read m1 idx = Memory.read m2 idx) : m1 = m2 := by
  have hmem : ∀ c, c ∈ m1 ↔ c ∈ m2 := by
    rintro ⟨idx, v⟩
    rw [← Memory.read_eq_some_iff m1 h1, ← Memory.read_eq_some_iff m2 h2, h]
  have n1 : m1.Nodup := h1.imp fun hlt he => by simp [he] at hlt
  have n2 : m2.Nodup := h2.imp fun hlt he => by simp [he] at hlt
  exact List.Perm.eq_of_pairwise (fun a b _ _ hab hba => absurd hab (lt_asymm hba)) h1 h2
    ((List.perm_ext_iff_of_nodup n1 n2).mpr hmem)

/-! ## The built table -/

theorem tableIndex_lt {m i j : Nat} (hi : i < 2 ^ m) (hj : j < 2 ^ m) : tableIndex m i j < 2 ^ (2 * m) := by
  have e : (2 : Nat) ^ (2 * m) = 2 ^ m * 2 ^ m := by rw [two_mul, pow_add]
  have h1 : i * 2 ^ m + 2 ^ m ≤ 2 ^ m * 2 ^ m := by nlinarith
  rw [tableIndex, e]
  omega

/-- The packing keeps the pair (R42). -/
theorem tableIndex_inj {m i j i' j' : Nat} (hj : j < 2 ^ m) (hj' : j' < 2 ^ m)
    (h : tableIndex m i j = tableIndex m i' j') : i = i' ∧ j = j' := by
  simp only [tableIndex] at h
  have e1 : (i * 2 ^ m + j) % 2 ^ m = j := by simp [Nat.mod_eq_of_lt hj]
  have e2 : (i' * 2 ^ m + j') % 2 ^ m = j' := by simp [Nat.mod_eq_of_lt hj']
  have hjj : j = j' := by rw [← e1, ← e2, h]
  subst hjj
  exact ⟨Nat.eq_of_mul_eq_mul_right (Nat.two_pow_pos m) (by omega), rfl⟩

theorem mem_builtCells {m : Nat} {c : Nat × Bool} :
    c ∈ builtCells m ↔ ∃ i < 2 ^ m, ∃ j < 2 ^ m, c = (tableIndex m i j, dot i j) := by
  simp [builtCells, tableRow, eq_comm]

theorem builtCells_wf (m : Nat) : Memory.wf (builtCells m) := by
  rw [Memory.wf, builtCells, List.pairwise_flatMap]
  constructor
  · intro i _
    rw [tableRow, List.pairwise_map]
    exact List.pairwise_lt_range.imp fun {a b} hab => by simp only [tableIndex]; omega
  · refine List.pairwise_lt_range.imp fun {a b} hab => ?_
    intro x hx y hy
    simp only [tableRow, List.mem_map, List.mem_range] at hx hy
    obtain ⟨j, hj, rfl⟩ := hx
    obtain ⟨j', hj', rfl⟩ := hy
    have : (a + 1) * 2 ^ m ≤ b * 2 ^ m := Nat.mul_le_mul_right _ hab
    simp only [tableIndex]
    rw [Nat.succ_mul] at this
    omega

/-- Entry (i, j) of a built table is the dot product of i and j (R31, R122). -/
theorem builtCells_read {m i j : Nat} (hi : i < 2 ^ m) (hj : j < 2 ^ m) :
    Memory.read (builtCells m) (tableIndex m i j) = some (dot i j) :=
  (Memory.read_eq_some_iff _ (builtCells_wf m) _ _).mpr (mem_builtCells.mpr ⟨i, hi, j, hj, rfl⟩)

/-- No entry at or above 2^(2m) holds a value (R30). -/
theorem builtCells_read_above {m idx : Nat} (h : 2 ^ (2 * m) ≤ idx) : Memory.read (builtCells m) idx = none := by
  rcases e : Memory.read (builtCells m) idx with _ | v
  · rfl
  · obtain ⟨i, hi, j, hj, hc⟩ := mem_builtCells.mp ((Memory.read_eq_some_iff _ (builtCells_wf m) _ _).mp e)
    have h1 := tableIndex_lt hi hj
    have h2 : idx = tableIndex m i j := congrArg Prod.fst hc
    omega

theorem builtTable_m {m : Nat} (h : m ≤ 16) : (builtTable m).m.toNat = m := by
  have h2 : m < 2 ^ 5 := by omega
  exact (BitVec.toNat_ofNat m 5).trans (Nat.mod_eq_of_lt h2)

end Sys2Proof.Machine
end

