-- ==== Sys2Proof/Laws/Multipliers.lean ====
section
/-! SUPPORT. What the loops of the three multipliers compute, coefficient by coefficient
(41_schoolbook.md R112; 42_block_table.md R126 to R132; 43_chunked.md R152 to R156). -/

namespace Sys2Proof.Machine

/-! ## Schoolbook -/

/-- The accumulator after the loop: the XOR of `sa << j` over the set bits j of `sb` (R112). -/
theorem shiftLoop_acc {r c : Nat} (fuel : Nat) (x : ShiftRegs r c) (h : x.sb.toNat < 2 ^ fuel) (k : Nat) (hk : k < r) :
    (shiftLoop fuel x).acc.getLsbD k =
      (x.acc.getLsbD k ^^ xorSum fuel fun j => x.sb.getLsbD j && (decide (j ≤ k) && x.sa.getLsbD (k - j))) := by
  induction fuel generalizing x with
  | zero => simp [shiftLoop, xorSum]
  | succ fuel ih =>
    rw [shiftLoop]
    split
    · rename_i h0
      rw [xorSum_eq_false (fun j _ => by simp [h0]), Bool.xor_false]
    · have hsb : (shiftStep x).sb.toNat < 2 ^ fuel := by
        simp only [shiftStep, BitVec.toNat_ushiftRight, Nat.shiftRight_one]
        rw [Nat.pow_succ] at h
        omega
      rw [ih _ hsb, Nat.add_comm fuel 1, xorSum_add]
      have h1 : (shiftStep x).acc.getLsbD k = (x.acc.getLsbD k ^^ (x.sb.getLsbD 0 && x.sa.getLsbD k)) := by
        cases h0 : x.sb.getLsbD 0 <;> simp [shiftStep, h0]
      have h2 : xorSum 1 (fun j => x.sb.getLsbD j && (decide (j ≤ k) && x.sa.getLsbD (k - j))) =
          (x.sb.getLsbD 0 && x.sa.getLsbD k) := by simp [xorSum]
      rw [h1, h2, Bool.xor_assoc]
      congr 2
      refine xorSum_congr fun j _ => ?_
      simp only [shiftStep, BitVec.getLsbD_ushiftRight, BitVec.getLsbD_shiftLeft]
      by_cases hj : 1 + j ≤ k
      · have e1 : j ≤ k := by omega
        have e2 : k - j < r := by omega
        have e3 : ¬ k - j < 1 := by omega
        have e4 : j < k := by omega
        simp [e1, e2, e3, e4, Nat.sub_sub, Nat.add_comm]
      · by_cases e1 : j ≤ k
        · have e3 : k - j < 1 := by omega
          simp [hj, e3]
        · simp [hj, e1]

/-- The accumulator of MULN is the reference product. -/
theorem shiftLoop_start (s : State) :
    (shiftLoop s.cfg.cap s.shiftStart).acc.toNat = clmul (s.poly .pa) (s.poly .pb) := by
  apply Nat.eq_of_testBit_eq
  intro k
  rw [testBit_clmul]
  by_cases hk : k < s.cfg.rcap
  · rw [BitVec.testBit_toNat, shiftLoop_acc _ _ s.pb.isLt _ hk, clmulBit_eq, ← xorSum_reverse]
    have e : (s.shiftStart.acc.getLsbD k ^^ xorSum s.cfg.cap fun j =>
          s.shiftStart.sb.getLsbD j && (decide (j ≤ k) && s.shiftStart.sa.getLsbD (k - j))) =
        xorSum s.cfg.cap fun j => decide (j ≤ k) && ((s.poly .pa).testBit (k - j) && (s.poly .pb).testBit j) := by
      have h0 : s.shiftStart.acc.getLsbD k = false := BitVec.getLsbD_zero
      rw [h0, Bool.false_xor]
      simp only [State.shiftStart]
      refine xorSum_congr fun j _ => ?_
      have : k - j < s.cfg.rcap := by omega
      simp only [BitVec.getLsbD_setWidth, this, decide_true, Bool.true_and, State.poly, BitVec.testBit_toNat]
      cases s.pb.getLsbD j <;> cases s.pa.getLsbD (k - j) <;> simp
    rw [e]
    have h1 : xorSum (s.cfg.cap + (k + 1)) (fun j => decide (j ≤ k) && ((s.poly .pa).testBit (k - j) && (s.poly .pb).testBit j)) =
        xorSum s.cfg.cap fun j => decide (j ≤ k) && ((s.poly .pa).testBit (k - j) && (s.poly .pb).testBit j) :=
      xorSum_trim (by omega) fun j _ hj => by
        rw [testBit_of_len_le (x := s.poly .pb) (le_trans (len_le_of_lt_two_pow (poly_pb_lt s)) hj)]
        simp
    have h2 : xorSum (s.cfg.cap + (k + 1)) (fun j => decide (j ≤ k) && ((s.poly .pa).testBit (k - j) && (s.poly .pb).testBit j)) =
        xorSum (k + 1) fun j => decide (j ≤ k) && ((s.poly .pa).testBit (k - j) && (s.poly .pb).testBit j) :=
      xorSum_trim (by omega) fun j _ hj => by
        have : ¬ j ≤ k := by omega
        simp [this]
    rw [← h1, h2]
    refine xorSum_congr fun j hj => ?_
    have h3 : j ≤ k := by omega
    have h4 : k - (k - j) = j := by omega
    simp [h3, h4]
  · have h1 := clmul_lt (poly_pa_lt s) (poly_pb_lt s)
    have h2 : (2 : Nat) ^ s.cfg.rcap ≤ 2 ^ k := Nat.pow_le_pow_right (by omega) (by omega)
    rw [← testBit_clmul, Nat.testBit_lt_two_pow (lt_of_lt_of_le h1 h2)]
    exact Nat.testBit_lt_two_pow (lt_of_lt_of_le (BitVec.isLt _) h2)

/-! ## Block table -/

/-- Every entry of the table holds the dot product of its pair (R31). -/
def Table.Holds (t : Table) (m : Nat) : Prop :=
  t.m.toNat = m ∧ ∀ i j, i < 2 ^ m → j < 2 ^ m → Memory.read t.cells (tableIndex m i j) = some (dot i j)

theorem Table.read_of_holds {t : Table} {m i j : Nat} (h : t.Holds m) (hi : i < 2 ^ m) (hj : j < 2 ^ m) :
    t.read (tableIndex m i j) = .ok (dot i j) := by
  have := tableIndex_lt hi hj
  simp [Table.read, h.1, this, h.2 i j hi hj]

theorem builtTable_holds {m : Nat} (h : m ≤ 16) : (builtTable m).Holds m :=
  ⟨builtTable_m h, fun _ _ hi hj => builtCells_read hi hj⟩

/-- A block contributes the XOR of its positions' products, looked up or not (R128, R129). -/
theorem blockContribution_eq {t : Table} {m : Nat} (h : t.Holds m) (a b k s L : Nat) :
    blockContribution t m a b k (s, L) = .ok (xorSum L fun p => a.testBit (s + p) && b.testBit (k - (s + p))) := by
  have e : ∀ p, k - s - p = k - (s + p) := fun p => by omega
  simp only [blockContribution]
  split
  · rename_i hL
    subst hL
    rw [blockIndexA, blockIndexB, Table.read_of_holds h (natOfBits_lt _ _) (natOfBits_lt _ _), dot_natOfBits]
    simp only [e]
  · simp only [e]

/-- The blocks from `s` cover every position up to `hi` exactly once (R126). -/
theorem xorBlocks_blocksFrom {m hi : Nat} (hm : 1 ≤ m) (f : Nat × Nat → Except Fault Bool) (g : Nat → Bool)
    (hf : ∀ s L, f (s, L) = .ok (xorSum L fun p => g (s + p))) (fuel s : Nat) (hfuel : hi + 1 ≤ s + fuel) (c : Bool) :
    xorBlocks f (blocksFrom m hi fuel s) c = .ok (c ^^ xorSum (hi + 1 - s) fun p => g (s + p)) := by
  induction fuel generalizing s c with
  | zero =>
    have : hi + 1 - s = 0 := by omega
    simp [blocksFrom, xorBlocks, this, xorSum]
  | succ fuel ih =>
    rw [blocksFrom]
    split
    · have e : hi + 1 - s = min m (hi - s + 1) + (hi + 1 - (s + min m (hi - s + 1))) := by omega
      rw [xorBlocks, hf]
      simp only
      rw [ih _ (by omega), Bool.xor_assoc, e, xorSum_add]
      simp only [Nat.add_assoc]
    · have : hi + 1 - s = 0 := by omega
      simp [xorBlocks, this, xorSum]

/-- A coefficient of MULB is the coefficient of the reference product (R132). -/
theorem blockCoefficient_eq {t : Table} {m a b k : Nat} (h : t.Holds m) (hm : 1 ≤ m) (ha : a ≠ 0) (hb : b ≠ 0)
    (hk : k < len a + len b - 1) :
    blockCoefficient t m a b (deg a).toNat (deg b).toNat k = .ok (clmulBit a b k) := by
  have h1 := deg_toNat_of_ne_zero ha
  have h2 := deg_toNat_of_ne_zero hb
  have h3 : startI (deg b).toNat k ≤ endI (deg a).toNat k := by
    simp only [startI, endI]
    omega
  rw [blockCoefficient, blocks,
    xorBlocks_blocksFrom hm _ (fun i => a.testBit i && b.testBit (k - i)) (fun s L => blockContribution_eq h a b k s L)
      _ _ (by omega), clmulBit_range ha hb hk, Bool.false_xor]
  congr 2
  omega

theorem blockCoefficients_eq {t : Table} {m a b n : Nat} (h : t.Holds m) (hm : 1 ≤ m) (ha : a ≠ 0) (hb : b ≠ 0)
    (hn : n ≤ len a + len b - 1) :
    blockCoefficients t m a b (deg a).toNat (deg b).toNat n = .ok (natOfBits n (clmulBit a b)) := by
  induction n with
  | zero => rfl
  | succ n ih => simp [blockCoefficients, ih (by omega), blockCoefficient_eq h hm ha hb (k := n) (by omega), natOfBits]

/-- The product of MULB is the reference product (R132). -/
theorem blockProduct_eq {t : Table} {m a b : Nat} (h : t.Holds m) (hm : 1 ≤ m) (ha : a ≠ 0) (hb : b ≠ 0) :
    blockCoefficients t m a b (deg a).toNat (deg b).toNat ((deg a).toNat + (deg b).toNat + 1) = .ok (clmul a b) := by
  have h1 := deg_toNat_of_ne_zero ha
  have h2 := deg_toNat_of_ne_zero hb
  have e : (deg a).toNat + (deg b).toNat + 1 = len a + len b - 1 := by omega
  rw [e, blockCoefficients_eq h hm ha hb (le_refl _), clmul]

/-! ## Chunks -/

theorem parity_chunkWord (a b k cs ce : Nat) :
    parity (chunkWord a b k (cs, ce)) = xorSum (ce - cs + 1) fun p => a.testBit (cs + p) && b.testBit (k - (cs + p)) := by
  rw [chunkWord, parity_natOfBits]

/-- The chunks from `cs` cover every position up to `hi` exactly once, and parity adds over XOR (R152, R156). -/
theorem parity_xorChunks {w hi : Nat} (hw : 1 ≤ w) (word : Nat × Nat → Nat) (g : Nat → Bool)
    (hf : ∀ cs ce, parity (word (cs, ce)) = xorSum (ce - cs + 1) fun p => g (cs + p)) (fuel cs : Nat)
    (hfuel : hi + 1 ≤ cs + fuel) (acc : Nat) :
    parity (xorChunks word (chunksFrom w hi fuel cs) acc) = (parity acc ^^ xorSum (hi + 1 - cs) fun p => g (cs + p)) := by
  induction fuel generalizing cs acc with
  | zero =>
    have : hi + 1 - cs = 0 := by omega
    simp [chunksFrom, xorChunks, this, xorSum]
  | succ fuel ih =>
    rw [chunksFrom]
    split
    · rw [xorChunks, ih _ (by omega), parity_xor, hf, Bool.xor_assoc]
      congr 1
      by_cases hlast : hi ≤ cs + w - 1
      · have e1 : min (cs + w - 1) hi = hi := by omega
        have e2 : hi + 1 - (cs + w) = 0 := by omega
        have e3 : hi - cs + 1 = hi + 1 - cs := by omega
        rw [e1, e2, e3, xorSum, Bool.xor_false]
      · have e1 : min (cs + w - 1) hi - cs + 1 = w := by omega
        have e : hi + 1 - cs = w + (hi + 1 - (cs + w)) := by omega
        rw [e1, e, xorSum_add]
        simp only [Nat.add_assoc]
    · have : hi + 1 - cs = 0 := by omega
      simp [xorChunks, this, xorSum]

/-- The product of MULC is the reference product (R156). -/
theorem chunkedProduct_eq {w a b : Nat} (hw : 1 ≤ w) (ha : a ≠ 0) (hb : b ≠ 0) :
    chunkedProduct w a b (deg a).toNat (deg b).toNat = clmul a b := by
  have h1 := deg_toNat_of_ne_zero ha
  have h2 := deg_toNat_of_ne_zero hb
  have e : (deg a).toNat + (deg b).toNat + 1 = len a + len b - 1 := by omega
  rw [chunkedProduct, e, clmul]
  refine natOfBits_congr fun k hk => ?_
  have h3 : startI (deg b).toNat k ≤ endI (deg a).toNat k := by
    simp only [startI, endI]
    omega
  rw [chunkAccumulator, chunks,
    parity_xorChunks hw _ (fun i => a.testBit i && b.testBit (k - i)) (fun cs ce => parity_chunkWord a b k cs ce)
      _ _ (by omega), parity_zero, Bool.false_xor, clmulBit_range ha hb hk]
  congr 1
  omega

end Sys2Proof.Machine
end

