-- ==== Sys2Proof/Laws/PerInstr.lean ====
section
/-! SUPPORT. Per-instruction families (LAWS.json). `EncodedFields`: the word of an instruction carries the opcode of
its row in R63 and a reserved field of 0, whatever its operands (30_encoding.md R61, R63). -/

namespace Sys2Proof.Laws

/-- The opcode column of R63. -/
def EncodedFields.opcode : Instr → BitVec 8
  | .ldc _ => 0x01
  | .ldi _ => 0x02
  | .stc _ => 0x03
  | .sti _ => 0x04
  | .deg _ => 0x05
  | .coef _ _ => 0x06
  | .muln => 0x10
  | .mulb _ => 0x11
  | .mulc _ => 0x12
  | .tbld _ => 0x20
  | .tblq => 0x21
  | .tblx => 0x22

/-- The word of the instruction carries its opcode, and its reserved field is 0. -/
def EncodedFields.Statement (i : Instr) : Prop :=
  opcField (encode i) = EncodedFields.opcode i ∧ rsvField (encode i) = 0

theorem EncodedFields.of_fields {i : Instr} {imm : Int} {psel : BitVec 2}
    (h : encode i = wordOfFields imm psel (EncodedFields.opcode i)) : EncodedFields.Statement i := by
  rw [EncodedFields.Statement, h]
  exact ⟨opcField_wordOfFields _ _ _, rsvField_wordOfFields _ _ _⟩

theorem EncodedFields.ldc (d : LoadReg) : EncodedFields.Statement (.ldc d) := EncodedFields.of_fields rfl
theorem EncodedFields.ldi (d : LoadReg) : EncodedFields.Statement (.ldi d) := EncodedFields.of_fields rfl
theorem EncodedFields.stc (r : PolyReg) : EncodedFields.Statement (.stc r) := EncodedFields.of_fields rfl
theorem EncodedFields.sti (r : PolyReg) : EncodedFields.Statement (.sti r) := EncodedFields.of_fields rfl
theorem EncodedFields.deg (r : PolyReg) : EncodedFields.Statement (.deg r) := EncodedFields.of_fields rfl
theorem EncodedFields.coef (r : PolyReg) (idx : Int) : EncodedFields.Statement (.coef r idx) := EncodedFields.of_fields rfl
theorem EncodedFields.muln : EncodedFields.Statement .muln := EncodedFields.of_fields rfl
theorem EncodedFields.mulb (m : Int) : EncodedFields.Statement (.mulb m) := EncodedFields.of_fields rfl
theorem EncodedFields.mulc (w : Int) : EncodedFields.Statement (.mulc w) := EncodedFields.of_fields rfl
theorem EncodedFields.tbld (m : Int) : EncodedFields.Statement (.tbld m) := EncodedFields.of_fields rfl
theorem EncodedFields.tblq : EncodedFields.Statement .tblq := EncodedFields.of_fields rfl
theorem EncodedFields.tblx : EncodedFields.Statement .tblx := EncodedFields.of_fields rfl

end Sys2Proof.Laws
end

