-- ==== Sys2Proof/Laws/Safety.lean ====
section
/-! SUPPORT. A table that `build_table` or `ensure_table` gives is sound, and a sound table answers every lookup
(10_state.md R31; 42_block_table.md R122, R125). -/

namespace Sys2Proof.Machine

/-- What a lookup of a sound table needs to know of it. -/
theorem Table.Sound.holds {c : Config} {t : Table} (h : t.Sound c) : t.Holds t.m.toNat :=
  ⟨rfl, fun i j hi hj => h.entry i j hi hj⟩

theorem builtTable_sound {c : Config} {m : Nat} (h1 : 1 ≤ m) (h2 : m ≤ c.mMax) : (builtTable m).Sound c := by
  have h3 : (builtTable m).m.toNat = m := builtTable_m (le_trans h2 c.mMax_le)
  refine ⟨by omega, by omega, builtCells_wf m, ?_, ?_⟩ <;> rw [h3]
  · exact fun i j hi hj => builtCells_read hi hj
  · exact fun idx h => builtCells_read_above h

/-- `ensure_table(m)` gives a sound table for m, cached or built (R125). -/
theorem ensuredTable_sound {s : State} (hs : ∀ t, s.table = some t → t.Sound s.cfg) {m : Nat} (h1 : 1 ≤ m)
    (h2 : m ≤ s.cfg.mMax) : (s.ensuredTable m).Sound s.cfg ∧ (s.ensuredTable m).m.toNat = m := by
  have hm := builtTable_m (le_trans h2 s.cfg.mMax_le)
  unfold State.ensuredTable
  split
  · split
    · exact ⟨hs _ ‹_›, ‹_›⟩
    · exact ⟨builtTable_sound h1 h2, hm⟩
  · exact ⟨builtTable_sound h1 h2, hm⟩

end Sys2Proof.Machine
end

