-- ==== Sys2Proof/Tests/Slice0.lean ====
section
/-! SUPPORT. Tests: well-formedness, decoding against the words of the spec, at most two per command against the vectors
of 95_test_vectors.md, and for every obligation with hypotheses a state that meets them. -/

namespace Sys2Proof.Tests

open Sys2Proof Sys2Proof.Machine

/-! ## Small states (the vectors of 95_test_vectors.md use CAP = 8, W_MAX = 64) -/

abbrev small : Config := { cap := 8, mMax := 8, wMax := 64 }

/-- A block of the small parameters with nothing given and nothing answered. -/
abbrev block (pa pb : BitVec 8) (pr : BitVec 15) (table : Option Table) (payload : Payload) : State where
  cfg := small
  pa := pa
  pb := pb
  pr := pr
  table := table
  inputs := []
  payload := payload
  responses := []

/-- A block to which the host still gives these. -/
abbrev given (pa pb : BitVec 8) (table : Option Table) (inputs : List Input) : State :=
  { block pa pb 7 table .none with inputs := inputs }

/-- PA, PB, PR, TBL_M and the responses after a command. -/
def seen : Result → Option (Nat × Nat × Nat × Option Nat × List Response)
  | .next t => some (t.poly .pa, t.poly .pb, t.poly .pr, t.tblM.map BitVec.toNat, t.responses)
  | .fault _ => none
  | .refused _ => none

def isRefused : Result → Bool
  | .next _ => false
  | .fault _ => false
  | .refused r => r == .payloadIllFormed

/-! ## WellFormed: each check refuses an ill-formed term (30_encoding.md R65, R67, R68) -/

theorem test_wf_coef_index_above_range : (Instr.coef .pa 32768).wf = false := by decide
theorem test_wf_coef_index_below_range : (Instr.coef .pa (-32769)).wf = false := by decide
theorem test_wf_mulb_above_range : (Instr.mulb 32768).wf = false := by decide
theorem test_wf_mulc_below_range : (Instr.mulc (-32769)).wf = false := by decide
theorem test_wf_tbld_above_range : (Instr.tbld 65536).wf = false := by decide
theorem test_wf_payload_too_few_coefficients : (Payload.coef 3 [true, false]).wf = false := by decide
theorem test_wf_payload_negative_length_with_a_coefficient : (Payload.coef (-1) [true]).wf = false := by decide
theorem test_wf_int_of_another_width : Command.wellFormed small ⟨0x00000002, .int 9 5⟩ = false := by decide
theorem test_wf_payload_on_an_illegal_word : Command.wellFormed small ⟨0x00000000, .pair 0⟩ = false := by decide

/-! ## Decoding: words of 30_encoding.md section 7 and 95_test_vectors.md section 2.6 -/

theorem test_decode_ldc : decode 0x00000001 = some (.ldc .pa) ∧ decode 0x00000101 = some (.ldc .pb) := by decide
theorem test_decode_ldi : decode 0x00000002 = some (.ldi .pa) ∧ decode 0x00000102 = some (.ldi .pb) := by decide
theorem test_decode_stc : decode 0x00000003 = some (.stc .pa) ∧ decode 0x00000203 = some (.stc .pr) := by decide
theorem test_decode_sti : decode 0x00000204 = some (.sti .pr) := by decide
theorem test_decode_deg : decode 0x00000005 = some (.deg .pa) ∧ decode 0x00000205 = some (.deg .pr) := by decide
theorem test_decode_coef : decode 0x00020006 = some (.coef .pa 2) ∧ decode 0xFFFF0206 = some (.coef .pr (-1)) := by
  decide
theorem test_decode_muln : decode 0x00000010 = some .muln := by decide
theorem test_decode_mulb : decode 0xFFFF0011 = some (.mulb (-1)) ∧ decode 0x7FFF0011 = some (.mulb 32767) := by decide
theorem test_decode_mulc : decode 0x00400012 = some (.mulc 64) ∧ decode 0x80000012 = some (.mulc (-32768)) := by decide
theorem test_decode_tbld : decode 0x00020020 = some (.tbld 2) := by decide
theorem test_decode_tblq : decode 0x00000021 = some .tblq := by decide
theorem test_decode_tblx : decode 0x00000022 = some .tblx := by decide

/-- The twenty illegal words of section 2.6. -/
theorem test_decode_illegal_words :
    ([0x00000000, 0x00000007, 0x00000013, 0x00000023, 0x000000FF, 0xFFFFFFFF, 0x00000201, 0x00000202, 0x00000301,
      0x00000303, 0x00000306, 0x00000410, 0x00008003, 0x00010010, 0x00010003, 0x00010021, 0x00000110, 0x00040111,
      0x00400212, 0x00020120] : List Word).all (fun w => decode w == none) = true := by decide

theorem test_encode_words_of_section_7 :
    encode (.coef .pr (-1)) = 0xFFFF0206 ∧ encode (.mulb (-1)) = 0xFFFF0011 ∧ encode (.mulc 8) = 0x00080012 ∧
      encode (.ldi .pb) = 0x00000102 := by decide

/-- R45: `MULB 4` as bytes. -/
theorem test_decode_bytes : decodeBytes [0x11, 0x00, 0x04, 0x00, 0x22] = some (.mulb 4, [0x22]) := by decide

theorem test_decode_table_word : decodeTableWord 32 0x00040011 = some (.mulb 4) := by decide

/-! ## The assembler (30_encoding.md section 7, R78, R80) -/

theorem test_assemble_defaults :
    assemble small (.mulb none) = some ⟨0x00040011, .none⟩ ∧ assemble small (.mulc none) = some ⟨0x00400012, .none⟩ := by
  decide

theorem test_assemble_payloads :
    assemble small (.tblq 3 1) = some ⟨0x00000021, .pair 0x00030001⟩ ∧
      assemble small (.ldc .pa [true, false, true]) = some ⟨0x00000001, .coef 3 [true, false, true]⟩ := by decide

/-- R78: "An integer out of the stated range is an assembler error". -/
theorem test_assemble_out_of_range :
    assemble small (.ldi .pa 256) = none ∧ assemble small (.tblq 65536 0) = none ∧
      assemble small (.mulb (some 32768)) = none := by decide

/-- Lines of 30_encoding.md section 7 as text, and the raw LDC line of program 4. -/
theorem test_assemble_text :
    assembleText small "LDC PA, [1,0,1]" = some ⟨0x00000001, .coef 3 [true, false, true]⟩ ∧
      assembleText small "COEF PR, -1   ; rejected" = some ⟨0xFFFF0206, .none⟩ ∧
      assembleText small "LDI PB, 0x3" = some ⟨0x00000102, .int 8 3⟩ ∧
      assembleText small "TBLQ 3, 1" = some ⟨0x00000021, .pair 0x00030001⟩ ∧
      assembleText small "LDC PA, len=-1, []" = some ⟨0x00000001, .coef (-1) []⟩ := by decide +kernel

theorem test_assemble_text_rejects :
    assembleText small "LDC PR, [1]" = none ∧ assembleText small "LDC PA, [2]" = none ∧
      assembleText small "LDI PA, 0b100000000" = none ∧ assembleText small "NOP" = none := by decide +kernel

theorem test_assemble_lines :
    assembleLines small ["; scenario 2", "MULB", "", "MULC"] = some [⟨0x00040011, .none⟩, ⟨0x00400012, .none⟩] := by
  decide +kernel

/-! ## Commands, on the vectors of 95_test_vectors.md -/

theorem test_ldc_normalises :
    seen (exec (.ldc .pa) (block 0x87 0 7 none (.coef 3 [true, false, false]))) =
      some (0x01, 0, 7, none, [⟨.ok, .none⟩]) := by decide +kernel

theorem test_ldc_rejects_by_length_alone :
    seen (exec (.ldc .pa) (block 0x87 0 7 none (.coef 9 (List.replicate 9 false)))) =
      some (0x87, 0, 7, none, [⟨.capacityExceeded, .none⟩]) := by decide +kernel

theorem test_ldi : seen (exec (.ldi .pb) (block 0x87 0 7 none (.int 8 0xFF))) =
    some (0x87, 0xFF, 7, none, [⟨.ok, .none⟩]) := by decide +kernel

theorem test_stc : seen (exec (.stc .pa) (block 0x05 0 7 none .none)) =
    some (0x05, 0, 7, none, [⟨.ok, .coef 3 [true, false, true]⟩]) := by decide +kernel

theorem test_stc_zero : seen (exec (.stc .pa) (block 0 0 7 none .none)) =
    some (0, 0, 7, none, [⟨.ok, .coef 0 []⟩]) := by decide +kernel

theorem test_sti_pr : seen (exec (.sti .pr) (block 0 0 0x4015 none .none)) =
    some (0, 0, 0x4015, none, [⟨.ok, .int 15 0x4015⟩]) := by decide +kernel

theorem test_deg_zero : seen (exec (.deg .pa) (block 0 0 7 none .none)) =
    some (0, 0, 7, none, [⟨.ok, .deg 0xFFFFFFFF⟩]) := by decide +kernel

theorem test_deg_top_bit : seen (exec (.deg .pr) (block 0 0 0x4000 none .none)) =
    some (0, 0, 0x4000, none, [⟨.ok, .deg 14⟩]) := by decide +kernel

theorem test_coef_at_the_width : seen (exec (.coef .pa 8) (block 0xFF 0 7 none .none)) =
    some (0xFF, 0, 7, none, [⟨.ok, .bit false⟩]) := by decide +kernel

theorem test_coef_negative : seen (exec (.coef .pa (-1)) (block 0x05 0 7 none .none)) =
    some (0x05, 0, 7, none, [⟨.indexRejected, .none⟩]) := by decide +kernel

/-- Example E2. -/
theorem test_muln : seen (exec .muln (block 0x5B 0x1D 7 none .none)) =
    some (0x5B, 0x1D, 0x65F, none, [⟨.ok, .none⟩]) := by decide +kernel

theorem test_muln_squares : seen (exec .muln (block 0xFF 0xFF 7 none .none)) =
    some (0xFF, 0xFF, 0x5555, none, [⟨.ok, .none⟩]) := by decide +kernel

/-- Example E2, program 3 line 12: a table for another m is replaced. -/
theorem test_mulb_rebuilds : seen (exec (.mulb 3) (block 0x5B 0x1D 7 (some (builtTable 2)) .none)) =
    some (0x5B, 0x1D, 0x65F, some 3, [⟨.ok, .none⟩]) := by decide +kernel

/-- The check precedes the zero short-circuit (R201). -/
theorem test_mulb_checks_first : seen (exec (.mulb 0) (block 0 0x03 7 none .none)) =
    some (0, 0x03, 7, none, [⟨.configurationError, .none⟩]) := by decide +kernel

theorem test_mulc : seen (exec (.mulc 4) (block 0x5B 0x1D 7 none .none)) =
    some (0x5B, 0x1D, 0x65F, none, [⟨.ok, .none⟩]) := by decide +kernel

theorem test_mulc_too_wide : seen (exec (.mulc 65) (block 0x05 0x03 7 none .none)) =
    some (0x05, 0x03, 7, none, [⟨.configurationError, .none⟩]) := by decide +kernel

/-- E2 under MULC 4, k = 4: two chunks, words 0x3 and 0x1, accumulator 0x2. -/
theorem test_chunk_words :
    chunks 4 0 4 = [(0, 3), (4, 4)] ∧ chunkWord 0x5B 0x1D 4 (0, 3) = 0x3 ∧ chunkWord 0x5B 0x1D 4 (4, 4) = 0x1 ∧
      chunkAccumulator 4 0x5B 0x1D 6 4 4 = 0x2 := by decide +kernel

/-- The example of R130, k = 2: one full block with ia = 2, ib = 3. -/
theorem test_block_indices :
    blocks 2 1 2 = [(1, 2)] ∧ blockIndexA 2 0x5 1 = 2 ∧ blockIndexB 2 0x3 2 1 = 3 := by decide +kernel

/-- Section 2.3: the table for m = 2. -/
theorem test_tbld :
    seen (exec (.tbld 2) (block 0 0 7 none .none)) = some (0, 0, 7, some 2, [⟨.ok, .none⟩]) ∧
      (builtCells 2).map Prod.snd =
        [false, false, false, false, false, true, false, true, false, false, true, true, false, true, true, false] := by
  decide +kernel

theorem test_tbld_too_big : seen (exec (.tbld 9) (block 0 0 7 none .none)) =
    some (0, 0, 7, none, [⟨.configurationError, .none⟩]) := by decide +kernel

theorem test_tblq : seen (exec .tblq (block 0 0 7 (some (builtTable 2)) (.pair 0x00030001))) =
    some (0, 0, 7, some 2, [⟨.ok, .bit true⟩]) := by decide +kernel

/-- Section 2.7: TableNotBuilt before IndexRejected. -/
theorem test_tblq_priority : seen (exec .tblq (block 0 0 7 none (.pair 0xFFFFFFFF))) =
    some (0, 0, 7, none, [⟨.tableNotBuilt, .none⟩]) := by decide +kernel

theorem test_tblx : seen (exec .tblx (block 0 0 7 (some (builtTable 2)) .none)) =
    some (0, 0, 7, none, [⟨.ok, .none⟩]) := by decide +kernel

/-! ## Steps -/

/-- R66: a payload of another kind is refused. -/
theorem test_step_refuses_an_ill_formed_pair :
    isRefused (step (given 0 0 none [.command ⟨0x00000010, .pair 0⟩])) = true := by decide +kernel

theorem test_step_answers_an_illegal_word :
    seen (step (given 0x05 0x03 none [.command ⟨0x00000201, .none⟩])) =
      some (0x05, 0x03, 7, none, [⟨.illegalCommand, .none⟩]) := by decide +kernel

/-- R221: no response for the abandoned command, and the reset state. -/
theorem test_step_abandons :
    seen (step (given 0x05 0x03 (some (builtTable 1)) [.abandoned ⟨0x00000010, .none⟩])) =
      some (0, 0, 0, none, []) := by decide +kernel

/-- A row's word, placed by `withFetchWord`, runs as the first command after reset. -/
theorem test_fetch_word : seen (step (State.reset.withFetchWord 32 0x00000005)) =
    some (0, 0, 0, none, [⟨.ok, .deg 0xFFFFFFFF⟩]) := by decide +kernel

/-! ## Witnesses: for every obligation with hypotheses, states and operands that meet them all -/

theorem block_inv {pa pb : BitVec 8} {pr : BitVec 15} {table : Option Table}
    (h : ∀ t, table = some t → t.Sound small) : (block pa pb pr table .none).Inv :=
  ⟨h, rfl, fun _ hr => absurd hr (by simp)⟩

theorem given_inv {pa pb : BitVec 8} {table : Option Table} {inputs : List Input}
    (h : ∀ t, table = some t → t.Sound small) : (given pa pb table inputs).Inv :=
  ⟨h, rfl, fun _ hr => absurd hr (by simp)⟩

theorem no_table : ∀ t, (none : Option Table) = some t → t.Sound small := fun _ h => nomatch h

theorem built_table {m : Nat} (h1 : 1 ≤ m) (h2 : m ≤ 8) : ∀ t, some (builtTable m) = some t → t.Sound small := by
  rintro _ ⟨⟩
  exact builtTable_sound h1 h2

theorem witness_DecodeAfterEncode : (Instr.coef .pr (-32768)).wf = true ∧ (Instr.mulb 32767).wf = true := by decide

theorem witness_EncodeAfterDecode : decode 0xFFFF0206 = some (.coef .pr (-1)) := by decide

theorem witness_OpcodeRowsSelectTheDecodedCommand :
    ⟨"COEF", 0x0000FCFF, 0x00000006, true⟩ ∈ opcodeRows ∧
      OpcodeRow.selects ⟨"COEF", 0x0000FCFF, 0x00000006, true⟩ 0xFFFF0206 = true ∧
      OpcodeRow.selects ⟨"COEF", 0x0000FCFF, 0x00000006, true⟩ 0xFFFF0306 = false := by decide

/-- One word for each clause: unassigned opc, imm16, psel, rsv, psel 3, psel 2 in a load. -/
theorem witness_IllegalWordsAreAnsweredAndChangeNothing :
    decode 0x00000023 = none ∧ decode 0x00010010 = none ∧ decode 0x00000110 = none ∧ decode 0x00000410 = none ∧
      decode 0x00000303 = none ∧ decode 0x00000201 = none ∧
      (given 5 3 none [.command ⟨0x00000201, .none⟩]).inputs = .command ⟨0x00000201, .none⟩ :: [] := by decide

theorem witness_AssembledLinesAreCommands :
    assemble small (.ldcRaw .pa (-1) []) = some ⟨0x00000001, .coef (-1) []⟩ ∧
      assemble small (.ldi .pb 255) = some ⟨0x00000102, .int 8 255⟩ ∧
      assemble small (.coef .pa (-32768)) = some ⟨0x80000006, .none⟩ ∧
      assembleText small "TBLQ 65535, 0" = some ⟨0x00000021, .pair 0xFFFF0000⟩ := by decide +kernel

/-- The text clause, and a word of a line that contains no separator. -/
theorem witness_TextLinesAreReadAsWritten :
    lexLine "TBLQ 3, 1 ; query".toList [] = [.word "TBLQ".toList, .word ['3'], .comma, .word ['1']] ∧
      readLine "TBLQ" [.word ['3'], .comma, .word ['1']] = some (.tblq 3 1) ∧
      (∀ w, AsmToken.word w ∈ [AsmToken.word ['3'], .comma] → w ≠ [] ∧ ∀ ch ∈ w, ch ∉ [';', ' ', '\t', ',', '[', ']', '=']) :=
  ⟨by decide +kernel, by decide +kernel, fun w h => by
    obtain rfl : w = ['3'] := by simpa using h
    simp⟩

theorem witness_StepRunsTheDecodedCommand :
    (given 5 3 none [.command ⟨0x00040011, .none⟩, .reset]).inputs = .command ⟨0x00040011, .none⟩ :: [.reset] ∧
      decode 0x00040011 = some (.mulb 4) := by decide

/-- Both sides of the equivalence occur. -/
theorem witness_ExactlyIllFormedPairsAreRefused :
    Command.wellFormed small ⟨0x00000001, .coef 2 [true]⟩ = false ∧
      isRefused (step (given 5 3 none [.command ⟨0x00000001, .coef 2 [true]⟩])) = true ∧
      Command.wellFormed small ⟨0x00000001, .coef 1 [true]⟩ = true ∧
      isRefused (step (given 5 3 none [.command ⟨0x00000001, .coef 1 [true]⟩])) = false := by decide +kernel

theorem witness_EveryCommandGetsOneResponse :
    (given 5 3 (some (builtTable 2)) [.command ⟨0x00000021, .pair 0x00030001⟩]).Inv ∧
      Command.wellFormed small ⟨0x00000021, .pair 0x00030001⟩ = true :=
  ⟨given_inv (built_table (by decide) (by decide)), by decide⟩

/-- A stream of two commands, the second illegal. -/
theorem witness_CommandStreamProducesAsManyResponses :
    (given 5 3 none [.command ⟨0x00000010, .none⟩, .command ⟨0x00000000, .none⟩]).Inv ∧
      ∀ x ∈ [Input.command ⟨0x00000010, .none⟩, .command ⟨0x00000000, .none⟩], Input.isCommand small x = true :=
  ⟨given_inv no_table, by decide⟩

theorem witness_IdleBlockHoldsItsState : (block 5 3 7 none .none).inputs = [] := rfl

theorem witness_ResetEventGivesTheResetState :
    (given 5 3 (some (builtTable 1)) [.reset]).inputs = .reset :: [] := rfl

theorem witness_ResetDuringACommandAbandonsIt :
    (given 5 3 (some (builtTable 1)) [.abandoned ⟨0x00000010, .none⟩]).Inv ∧
      Command.wellFormed small ⟨0x00000010, .none⟩ = true :=
  ⟨given_inv (built_table (by decide) (by decide)), by decide⟩

/-- A step of each kind that answers: also for EveryStepKeepsTheInvariant and EarlierResponsesAreNeverRead. -/
theorem witness_NoStepChangesTheParameters :
    (∃ t, step (block 5 3 7 none .none) = .next t) ∧ (∃ t, step (given 5 3 none [.reset]) = .next t) ∧
      (∃ t, step (given 5 3 none [.command ⟨0x00000010, .none⟩]) = .next t) ∧
      ∃ t, step (given 5 3 none [.abandoned ⟨0x00000010, .none⟩]) = .next t :=
  ⟨⟨_, rfl⟩, ⟨_, rfl⟩, ⟨_, rfl⟩, ⟨_, rfl⟩⟩

theorem witness_EarlierResponsesAreNeverRead :
    ∃ t, step (given 5 3 none [.command ⟨0x00000005, .none⟩]) = .next t ∧
      t.responses = (given 5 3 none [.command ⟨0x00000005, .none⟩]).responses ++ [⟨.ok, .deg 2⟩] :=
  ⟨_, rfl, by decide +kernel⟩

theorem witness_EveryStepKeepsTheInvariant :
    (given 5 3 (some (builtTable 1)) [.command ⟨0x00000022, .none⟩]).Inv ∧
      ∃ t, step (given 5 3 (some (builtTable 1)) [.command ⟨0x00000022, .none⟩]) = .next t :=
  ⟨given_inv (built_table (by decide) (by decide)), _, rfl⟩

theorem witness_NoCommandReadsAnUnmappedTableLocation : (given 5 3 (some (builtTable 8)) []).Inv :=
  given_inv (built_table (by decide) (by decide))

theorem witness_StatusCodesAreThoseOfTheTable :
    ∃ t, step (given 5 3 none [.command ⟨0x00000021, .pair 0⟩]) = .next t ∧
      t.responses = (given 5 3 none [.command ⟨0x00000021, .pair 0⟩]).responses ++ [⟨.tableNotBuilt, .none⟩] :=
  ⟨_, rfl, rfl⟩

theorem witness_RaisedStatusWritesNoState :
    ∃ t, step (given 5 3 none [.command ⟨0x00000011, .none⟩]) = .next t ∧
      t.responses = (given 5 3 none [.command ⟨0x00000011, .none⟩]).responses ++ [⟨.configurationError, .none⟩] ∧
      Status.configurationError ≠ .ok :=
  ⟨_, rfl, rfl, by decide⟩

theorem witness_StatusesAreThoseOfTheirRow :
    (∃ t, exec (.coef .pa (-1)) (block 5 3 7 none .none) = .next t) ∧
      Status.indexRejected ∈ possibleStatuses (.coef .pa (-1)) := ⟨⟨_, rfl⟩, by decide⟩

/-- LEN -1, 0, CAP, CAP + 1: the three clauses at their boundaries. -/
theorem witness_LdcLoadsOrRejectsByItsLength :
    (((([] : List Bool).length : Int) = max (-1 : BitVec 32).toInt 0) ∧ (-1 : BitVec 32).toInt < 0) ∧
      ((([] : List Bool).length : Int) = max (0 : BitVec 32).toInt 0 ∧ 0 ≤ (0 : BitVec 32).toInt) ∧
      (((List.replicate 8 true).length : Int) = max (8 : BitVec 32).toInt 0 ∧ (8 : BitVec 32).toInt ≤ small.cap) ∧
      (((List.replicate 9 false).length : Int) = max (9 : BitVec 32).toInt 0 ∧ (small.cap : Int) < (9 : BitVec 32).toInt) := by
  decide

theorem witness_LdiLoadsTheValueAsItIs :
    (block 0 0 7 none (.int 8 5)).payload = .int 8 5 ∧ toInteger [true, false, true] = (5 : BitVec 8).toNat ∧
      seen (exec (.ldc .pa) { block 0 0 7 none (.int 8 5) with payload := .coef 3 [true, false, true] }) =
        some (5, 0, 7, none, [⟨.ok, .none⟩]) := by decide +kernel

/-- A non-zero and a zero register. -/
theorem witness_StcRespondsTheCanonicalSequence :
    (block 5 0 7 none .none).payload = .none ∧ (block 5 0 7 none .none).poly .pa ≠ 0 ∧
      (block 5 0 7 none .none).poly .pb = 0 := by decide

theorem witness_StiRespondsTheWholeRegister : (block 5 0 7 none .none).payload = .none := rfl

/-- A zero register, and one with its top bit set. -/
theorem witness_DegRespondsTheHighestSetPosition :
    (block 0 0 0x4000 none .none).payload = .none ∧ (block 0 0 0x4000 none .none).poly .pa = 0 ∧
      (block 0 0 0x4000 none .none).poly .pr ≠ 0 := by decide

theorem witness_MulnLeavesTheProduct : (block 0x5B 0x1D 7 none .none).payload = .none := rfl

/-- With no table; with one the first clauses hold too. -/
theorem witness_TblxDropsTheTable :
    (block 5 3 7 none .none).payload = .none ∧ (block 5 3 7 none .none).tblValid = false ∧
      (block 5 3 7 (some (builtTable 1)) .none).payload = .none := ⟨rfl, rfl, rfl⟩

/-- Index -1, 0, and the width of PA. -/
theorem witness_CoefRespondsOneCoefficient :
    (block 5 0 7 none .none).payload = .none ∧ (-1 : Int) < 0 ∧ (0 : Int) = (0 : Nat) ∧ regWidth small .pa ≤ 8 := by decide

theorem witness_CodecFunctionsAreInverse : [false, true].getLast? = some true := rfl

theorem witness_SchoolbookLoopKeepsItsRelation :
    0 ≤ len ((block 5 3 7 none .none).poly .pb) ∧ 2 ≤ len ((block 5 3 7 none .none).poly .pb) := by decide +kernel

/-- m = 0 and 9 for the first clause, 1 and 8 for the second. -/
theorem witness_BlockSizeIsCheckedFirst :
    (block 5 3 7 none .none).payload = .none ∧ (0 : Int) ≤ 0 ∧ (small.mMax : Int) < 9 ∧ (1 : Int) ≤ 1 ∧
      (8 : Int) ≤ small.mMax ∧ (∃ t, exec (.mulb 1) (block 5 3 7 none .none) = .next t) ∧
      ∃ t, exec (.tbld 1) (block 5 3 7 none .none) = .next t :=
  ⟨by decide, by decide, by decide, by decide, by decide, ⟨_, rfl⟩, ⟨_, rfl⟩⟩

theorem witness_MulbOfAZeroOperandLeavesTheTable :
    (block 0 3 7 none .none).payload = .none ∧ (1 : Int) ≤ 8 ∧ (8 : Int) ≤ small.mMax ∧
      (block 0 3 7 none .none).poly .pa = 0 := by decide

/-- A table for the same m at its largest, and one for another m. -/
theorem witness_MulbLeavesTheProductAndTheTable :
    (∀ tb, (block 5 3 7 (some (builtTable 8)) .none).table = some tb → tb.Sound small) ∧ (1 : Int) ≤ 1 ∧ (8 : Int) ≤ small.mMax ∧
      (block 5 3 7 (some (builtTable 8)) .none).poly .pa ≠ 0 ∧ (block 5 3 7 (some (builtTable 8)) .none).poly .pb ≠ 0 ∧
      ((builtTable 8).m.toNat : Int) = 8 :=
  ⟨built_table (by decide) (by decide), by decide, by decide, by decide, by decide, by decide⟩

/-- w = 0 and 65 for the first clause, 1 and 64 for the second. -/
theorem witness_WordSizeIsCheckedFirst :
    (block 5 3 7 none .none).payload = .none ∧ (0 : Int) ≤ 0 ∧ (small.wMax : Int) < 65 ∧ (1 : Int) ≤ 1 ∧
      (64 : Int) ≤ small.wMax ∧ ∃ t, exec (.mulc 64) (block 5 3 7 none .none) = .next t :=
  ⟨by decide, by decide, by decide, by decide, by decide, ⟨_, rfl⟩⟩

theorem witness_MulcLeavesTheProduct :
    (block 0 3 7 none .none).payload = .none ∧ (1 : Int) ≤ 64 ∧ (64 : Int) ≤ small.wMax ∧
      (block 0 3 7 none .none).poly .pa = 0 := by decide

/-- A range of one position, and one with a block before the last. -/
theorem witness_BlocksPartitionTheRange :
    blocks 2 3 3 = [(3, 1)] ∧ blocks 2 0 2 = [(0, 2), (2, 1)] ∧ (0, 2) ∈ (blocks 2 0 2).dropLast := by decide

/-- A partial block at k = 0 and a full one at k = 1 (95_test_vectors.md S1, MULB 2). -/
theorem witness_BlockIndicesPairTheirPositions :
    (0, 1) ∈ blocks 2 (startI (len 3 - 1) 0) (endI (len 5 - 1) 0) ∧
      (0, 2) ∈ blocks 2 (startI (len 3 - 1) 1) (endI (len 5 - 1) 1) ∧ 1 < len 5 + len 3 - 1 := by decide +kernel

theorem witness_ChunksPartitionTheRange :
    chunks 2 3 3 = [(3, 3)] ∧ chunks 2 0 2 = [(0, 1), (2, 2)] ∧ (0, 1) ∈ (chunks 2 0 2).dropLast := by decide

theorem witness_ChunkWordHoldsItsProducts : (0, 3) ∈ chunks 4 0 4 ∧ (4, 4) ∈ chunks 4 0 4 := by decide

theorem witness_AccumulatorLanesXorTheChunkWords : startI 4 4 ≤ endI 6 4 ∧ 3 < 4 := by decide

theorem witness_TbldBuildsASoundTable :
    (block 5 3 7 none .none).payload = .none ∧ (1 : Int) ≤ 1 ∧ (8 : Int) ≤ small.mMax := by decide

/-- Another order than that of R122. -/
theorem witness_TableWriteOrderIsFree :
    [(1, 1), (0, 1), (1, 0), (0, 0)].Perm
      ((List.range (2 ^ 1)).flatMap fun i => (List.range (2 ^ 1)).map fun j => (i, j)) := by decide

theorem witness_TableHoldsTheStatedNumberOfOnes : (1 : Nat) ≤ 1 ∧ (builtCells 1).countP (fun c => c.2) = 1 := by decide

/-- No table; i at 2^m; both at 2^m - 1. -/
theorem witness_TblqAnswersTheEntry :
    (∀ tb, (block 5 3 7 (some (builtTable 2)) .none).table = some tb → tb.Sound small) ∧
      (block 5 3 7 none (.pair 0)).table = none ∧
      2 ^ (builtTable 2).m.toNat ≤ (0x00040000 : BitVec 32).toNat / 65536 ∧
      (0x00030003 : BitVec 32).toNat / 65536 < 2 ^ (builtTable 2).m.toNat ∧
      (0x00030003 : BitVec 32).toNat % 65536 < 2 ^ (builtTable 2).m.toNat :=
  ⟨built_table (by decide) (by decide), by decide, by decide, by decide, by decide⟩

/-- A command that answers and an item it does not write; for TBLX, PA. -/
theorem witness_CommandsWriteOnlyTheirItems :
    (∃ t, exec .muln (block 5 3 7 none .none) = .next t) ∧ StateItem.tbl ∉ writtenItems .muln ∧
      (∃ t, exec .tblx (block 5 3 7 none .none) = .next t) ∧ StateItem.pa ∉ writtenItems .tblx :=
  ⟨⟨_, rfl⟩, by decide, ⟨_, rfl⟩, by decide⟩

/-- Two blocks that agree on PA alone. -/
theorem witness_CommandsReadOnlyTheirItems :
    (∀ item ∈ readItems (.deg .pa), StateItem.Same item (block 5 3 7 none .none) (block 5 0 1 (some (builtTable 1)) .none)) ∧
      (∃ t, exec (.deg .pa) (block 5 3 7 none .none) = .next t) ∧
      ∃ t, exec (.deg .pa) (block 5 0 1 (some (builtTable 1)) .none) = .next t :=
  ⟨fun item h => by
    obtain rfl : item = .pa := by simpa [readItems, PolyReg.item] using h
    rfl, ⟨_, rfl⟩, ⟨_, rfl⟩⟩

theorem witness_MultipliesKeepTheirOperands :
    isMultiply (.mulb 0) = true ∧ ∃ t, exec (.mulb 0) (block 5 3 7 none .none) = .next t := ⟨rfl, _, rfl⟩

/-- Two blocks with the same operands, another PR and another table. -/
theorem witness_ProductDependsOnTheOperandsAlone :
    (block 5 3 7 none .none).Inv ∧ (block 5 3 1 (some (builtTable 2)) .none).Inv ∧ legalMultiply small (.mulb 8) = true ∧
      legalMultiply small (.mulc 64) = true ∧ (block 5 3 7 none .none).poly .pa = (block 5 3 1 (some (builtTable 2)) .none).poly .pa ∧
      seen (exec (.mulc 64) (block 5 3 7 none .none)) = some (5, 3, 0xF, none, [⟨.ok, .none⟩]) ∧
      seen (exec (.mulb 2) (block 5 3 1 (some (builtTable 2)) .none)) = some (5, 3, 0xF, some 2, [⟨.ok, .none⟩]) :=
  ⟨block_inv no_table, block_inv (built_table (by decide) (by decide)), by decide, by decide, by decide,
    by decide +kernel, by decide +kernel⟩

/-- One case for each clause: a rejected m, no table to drop, a zero operand beside a table for another m, and a table
for the same m. -/
theorem witness_TableMemoryIsUnchangedUnlessBuiltOrDropped :
    (∃ t, exec .muln (block 5 3 7 (some (builtTable 2)) .none) = .next t) ∧
      (∃ t, exec (.tbld 0) (block 5 3 7 (some (builtTable 2)) .none) = .next t) ∧
      (∃ t, exec .tblx (block 5 3 7 none .none) = .next t) ∧ (block 5 3 7 none .none).tblValid = false ∧
      (∃ t, exec (.mulb 9) (block 5 3 7 (some (builtTable 2)) .none) = .next t) ∧ (small.mMax : Int) < 9 ∧
      (∃ t, exec (.mulb 4) (block 0 3 7 (some (builtTable 2)) .none) = .next t) ∧
      (block 0 3 7 (some (builtTable 2)) .none).poly .pa = 0 ∧
      (∃ t, exec (.mulb 2) (block 5 3 7 (some (builtTable 2)) .none) = .next t) ∧
      ∃ tb, (block 5 3 7 (some (builtTable 2)) .none).table = some tb ∧ (tb.m.toNat : Int) = 2 :=
  ⟨⟨_, rfl⟩, ⟨_, rfl⟩, ⟨_, rfl⟩, rfl, ⟨_, rfl⟩, by decide, ⟨_, rfl⟩, rfl, ⟨_, rfl⟩, _, rfl, by decide⟩

theorem witness_AllMultipliersLeaveTheReferenceProduct :
    (block 5 3 7 none .none).Inv ∧ legalMultiply small .muln = true ∧ legalMultiply small (.mulb 8) = true ∧
      legalMultiply small (.mulc 1) = true := ⟨block_inv no_table, rfl, rfl, rfl⟩

theorem witness_BlockAndWordSizeDoNotChangeTheProduct :
    (block 5 3 7 none .none).Inv ∧ legalMultiply small (.mulb 1) = true ∧ legalMultiply small (.mulc 32) = true ∧
      (∃ t, exec (.mulb 1) (block 5 3 7 none .none) = .next t) ∧ ∃ t, exec (.mulc 32) (block 5 3 7 none .none) = .next t :=
  ⟨block_inv no_table, rfl, rfl, ⟨_, rfl⟩, ⟨_, rfl⟩⟩

theorem witness_MultiplyingByOneGivesTheOperand :
    (block 0x5B 1 7 none .none).Inv ∧ legalMultiply small .muln = true ∧ (block 0x5B 1 7 none .none).poly .pb = 1 :=
  ⟨block_inv no_table, rfl, rfl⟩

theorem witness_ZeroAbsorbs :
    (block 0 0x0B 7 none .none).Inv ∧ legalMultiply small (.mulb 1) = true ∧ (block 0 0x0B 7 none .none).poly .pa = 0 :=
  ⟨block_inv no_table, rfl, rfl⟩

theorem witness_ProductIsCommutative :
    (block 5 3 7 none .none).Inv ∧ (block 3 5 7 none .none).Inv ∧
      (block 5 3 7 none .none).poly .pa = (block 3 5 7 none .none).poly .pb ∧
      (block 5 3 7 none .none).poly .pb = (block 3 5 7 none .none).poly .pa :=
  ⟨block_inv no_table, block_inv no_table, rfl, rfl⟩

theorem witness_DegreeOfTheProductIsTheSum :
    (block 5 3 7 none .none).Inv ∧ legalMultiply small (.mulc 1) = true ∧ (block 5 3 7 none .none).poly .pa ≠ 0 ∧
      (block 5 3 7 none .none).poly .pb ≠ 0 := ⟨block_inv no_table, rfl, by decide, by decide⟩

end Sys2Proof.Tests
end

/-! PROOFS of the statements on the state (10_state.md): the invariant, the parameters and reset, what a command writes
and reads, and that the responses are an output only. -/

namespace Sys2Proof.Machine

/-! ## What a step can do -/

theorem runWord_next {w : Word} {s t : State} (h : runWord w s = .next t) :
    (decode w = none ∧ s.payload = .none ∧ t = s.finish ⟨.illegalCommand, .none⟩) ∨
      ∃ i, decode w = some i ∧ exec i s = .next t := by
  unfold runWord at h
  split at h
  · obtain ⟨hp, h⟩ := withNoPayload_next h
    exact .inl ⟨‹_›, hp, raise_next h⟩
  · exact .inr ⟨_, ‹_›, h⟩

theorem abandon_next {s t : State} {rest : List Input} {done : Result} (h : s.abandon rest done = .next t) :
    ∃ u, done = .next u ∧ t = { u.applyReset rest with responses := s.responses } := by
  cases done with
  | next u => exact ⟨u, rfl, by simpa [State.abandon, eq_comm] using h⟩
  | fault f => cases h
  | refused r => cases h

/-- The four things a step that answers can have been: idle, a command run to its response, a reset between two
commands, a reset inside one (R212, R220, R221). -/
theorem step_next {s t : State} (h : step s = .next t) :
    (s.inputs = [] ∧ t = s) ∨
      (∃ c rest, s.inputs = .command c :: rest ∧ runWord c.word (s.accept rest c.payload) = .next t) ∨
      (∃ rest, s.inputs = .reset :: rest ∧ t = s.applyReset rest) ∨
      ∃ c rest u, s.inputs = .abandoned c :: rest ∧ runWord c.word (s.accept rest c.payload) = .next u ∧
        t = { u.applyReset rest with responses := s.responses } := by
  unfold step at h
  split at h
  · exact .inl ⟨‹_›, by simpa [eq_comm] using h⟩
  · exact .inr (.inl ⟨_, _, ‹_›, h⟩)
  · exact .inr (.inr (.inl ⟨_, ‹_›, by simpa [eq_comm] using h⟩))
  · obtain ⟨u, hu, ht⟩ := abandon_next h
    exact .inr (.inr (.inr ⟨_, _, u, ‹_›, hu, ht⟩))

/-! ## Block sizes -/

theorem badBlockSize_eq_false_iff {c : Config} {m : Int} :
    badBlockSize c m = false ↔ 1 ≤ m ∧ m ≤ (c.mMax : Int) := by
  simp only [badBlockSize, Bool.or_eq_false_iff, decide_eq_false_iff_not]
  omega

/-- A block size that passes the check is one a table can be built for (R121). -/
theorem toNat_bounds_of_goodBlockSize {c : Config} {m : Int} (h : badBlockSize c m = false) :
    1 ≤ m.toNat ∧ m.toNat ≤ c.mMax := by
  have := badBlockSize_eq_false_iff.mp h
  omega

/-! ## What a command writes -/

section
variable {i : Instr} {s t : State}

/-- The table after a command: as it was, but for TBLX, TBLD with a legal m, and MULB with a legal m and non-zero
operands (R122, R124, R125, R131). -/
theorem exec_table (h : exec i s = .next t) :
    t.table = s.table ∨ (i = .tblx ∧ t.table = none) ∨
      ∃ m, badBlockSize s.cfg m = false ∧
        ((i = .tbld m ∧ t.table = some (builtTable m.toNat)) ∨
          (i = .mulb m ∧ s.zeroOperand = false ∧ t.table = some (s.ensuredTable m.toNat))) := by
  cases i with
  | ldc d => obtain ⟨_, _, _, _, ⟨_, rfl⟩ | ⟨_, rfl⟩ | ⟨_, _, rfl⟩⟩ := execLdc_next h <;> simp
  | ldi d => obtain ⟨_, _, rfl⟩ := execLdi_next h; simp
  | stc r => obtain ⟨_, rfl⟩ := execStc_next h; simp
  | sti r => obtain ⟨_, rfl⟩ := execSti_next h; simp
  | deg r => obtain ⟨_, rfl⟩ := execDeg_next h; simp
  | coef r idx => obtain ⟨_, ⟨_, rfl⟩ | ⟨_, rfl⟩⟩ := execCoef_next h <;> simp
  | muln => obtain ⟨_, ⟨_, rfl⟩ | ⟨_, rfl⟩⟩ := execMuln_next h <;> simp
  | mulb m =>
    obtain ⟨_, ⟨_, rfl⟩ | ⟨_, _, rfl⟩ | ⟨hm, hz, _, _, rfl⟩⟩ := execMulb_next h
    · exact .inl rfl
    · exact .inl rfl
    · exact .inr (.inr ⟨m, hm, .inr ⟨rfl, hz, rfl⟩⟩)
  | mulc w => obtain ⟨_, ⟨_, rfl⟩ | ⟨_, _, rfl⟩ | ⟨_, _, rfl⟩⟩ := execMulc_next h <;> simp
  | tbld m =>
    obtain ⟨_, ⟨_, rfl⟩ | ⟨hm, rfl⟩⟩ := execTbld_next h
    · exact .inl rfl
    · exact .inr (.inr ⟨m, hm, .inl ⟨rfl, rfl⟩⟩)
  | tblq => obtain ⟨_, _, ⟨_, rfl⟩ | ⟨_, _, ⟨_, rfl⟩ | ⟨_, _, _, _, rfl⟩⟩⟩ := execTblq_next h <;> simp
  | tblx =>
    obtain ⟨_, rfl⟩ := execTblx_next h
    exact .inr (.inl ⟨rfl, rfl⟩)

/-- A command leaves a polynomial register alone unless its row of R24 marks it W. -/
theorem exec_poly_of_not_written (h : exec i s = .next t) {r : PolyReg} (hr : PolyReg.item r ∉ writtenItems i) :
    t.poly r = s.poly r := by
  cases i with
  | ldc d =>
    have hd : r ≠ d.toPolyReg := by rintro rfl; exact hr (List.mem_singleton.mpr rfl)
    obtain ⟨_, _, _, _, ⟨_, rfl⟩ | ⟨_, rfl⟩ | ⟨_, _, rfl⟩⟩ := execLdc_next h <;>
      simp [setOperand_poly_other _ _ _ hd]
  | ldi d =>
    have hd : r ≠ d.toPolyReg := by rintro rfl; exact hr (List.mem_singleton.mpr rfl)
    obtain ⟨_, _, rfl⟩ := execLdi_next h
    simp [setOperand_poly_other _ _ _ hd]
  | stc r => obtain ⟨_, rfl⟩ := execStc_next h; simp
  | sti r => obtain ⟨_, rfl⟩ := execSti_next h; simp
  | deg r => obtain ⟨_, rfl⟩ := execDeg_next h; simp
  | coef r idx => obtain ⟨_, ⟨_, rfl⟩ | ⟨_, rfl⟩⟩ := execCoef_next h <;> simp
  | muln =>
    cases r with
    | pr => simp [writtenItems, PolyReg.item] at hr
    | pa | pb => obtain ⟨_, ⟨_, rfl⟩ | ⟨_, rfl⟩⟩ := execMuln_next h <;> rfl
  | mulb m =>
    cases r with
    | pr => simp [writtenItems, PolyReg.item] at hr
    | pa | pb => obtain ⟨_, ⟨_, rfl⟩ | ⟨_, _, rfl⟩ | ⟨_, _, _, _, rfl⟩⟩ := execMulb_next h <;> rfl
  | mulc w =>
    cases r with
    | pr => simp [writtenItems, PolyReg.item] at hr
    | pa | pb => obtain ⟨_, ⟨_, rfl⟩ | ⟨_, _, rfl⟩ | ⟨_, _, rfl⟩⟩ := execMulc_next h <;> rfl
  | tbld m => obtain ⟨_, ⟨_, rfl⟩ | ⟨_, rfl⟩⟩ := execTbld_next h <;> simp
  | tblq => obtain ⟨_, _, ⟨_, rfl⟩ | ⟨_, _, ⟨_, rfl⟩ | ⟨_, _, _, _, rfl⟩⟩⟩ := execTblq_next h <;> simp
  | tblx => obtain ⟨_, rfl⟩ := execTblx_next h; simp

/-- A command whose row of R24 does not mark an item of the table leaves the table alone; TBLX, which marks TBL_VALID
alone, drops the other two with it (R124). -/
theorem exec_table_of_not_written (h : exec i s = .next t) {item : StateItem}
    (htbl : item = .tblValid ∨ item = .tblM ∨ item = .tbl) (hitem : item ∉ writtenItems i)
    (hx : i = .tblx → item ≠ .tblM ∧ item ≠ .tbl) : t.table = s.table := by
  obtain he | ⟨rfl, _⟩ | ⟨m, _, ⟨rfl, _⟩ | ⟨rfl, _⟩⟩ := exec_table h
  · exact he
  · simp_all [writtenItems]
  · simp_all [writtenItems]
  · simp_all [writtenItems]

end

/-! ## The responses and the table under the invariant (R31, R70) -/

theorem poly_lt_rcap (s : State) (r : PolyReg) : s.poly r < 2 ^ s.cfg.rcap := by
  have h1 := s.cfg.one_le_cap
  have h2 : regWidth s.cfg r ≤ s.cfg.rcap := by cases r <;> simp only [regWidth, Config.rcap] <;> omega
  exact lt_of_lt_of_le (poly_lt s r) (Nat.pow_le_pow_right (by omega) h2)

theorem deg_eq_len_sub_one (x : Nat) : deg x = (len x : Int) - 1 := by
  by_cases h : x = 0
  · simp [h, deg, len_zero]
  · simp [len_of_ne_zero h, deg, h]

/-- R7 keeps RCAP below 2^31, so a length fits a signed 32-bit integer. -/
theorem len_poly_lt (s : State) (r : PolyReg) : len (s.poly r) ≤ s.cfg.rcap ∧ s.cfg.rcap < 2 ^ 31 := by
  have h := s.cfg.cap_le
  exact ⟨len_le_of_lt_two_pow (poly_lt_rcap s r), by simp only [Config.rcap]; omega⟩

theorem toCoefficients_getLast? (x : Nat) (h : toCoefficients x ≠ []) : (toCoefficients x).getLast? = some true := by
  have h0 : x ≠ 0 := by rintro rfl; exact h rfl
  have hd := deg_toNat_of_ne_zero h0
  simp [toCoefficients, ← hd, List.range_succ, testBit_deg h0]

theorem coefResponse_wf (s : State) (r : PolyReg) :
    (ResponsePayload.coef (BitVec.ofNat 32 (len (s.poly r))) (toCoefficients (s.poly r))).Wf s.cfg := by
  obtain ⟨h1, h2⟩ := len_poly_lt s r
  have h3 : (BitVec.ofNat 32 (len (s.poly r))).toInt = len (s.poly r) := by
    rw [BitVec.toInt_ofNat']
    exact Int.bmod_eq_of_le (by omega) (by omega)
  exact ⟨by omega, by rw [h3, toCoefficients_length], toCoefficients_getLast? _⟩

theorem degResponse_wf (s : State) (r : PolyReg) :
    (ResponsePayload.deg (BitVec.ofInt 32 (deg (s.poly r)))).Wf s.cfg := by
  obtain ⟨h1, h2⟩ := len_poly_lt s r
  have h3 : (BitVec.ofInt 32 (deg (s.poly r))).toInt = (len (s.poly r) : Int) - 1 := by
    rw [BitVec.toInt_ofInt, deg_eq_len_sub_one]
    exact Int.bmod_eq_of_le (by omega) (by omega)
  rw [ResponsePayload.Wf, h3]
  omega

theorem intResponse_wf (c : Config) (r : PolyReg) (v : BitVec (regWidth c r)) :
    (ResponsePayload.int (regWidth c r) v).Wf c := by
  cases r <;> simp [ResponsePayload.Wf, regWidth]

theorem Response.wf_of_no_payload (c : Config) {st : Status} (h : st ≠ .algorithmMismatch) :
    Response.Wf c ⟨st, .none⟩ := ⟨fun _ => rfl, h, trivial⟩

theorem Response.wf_of_ok {c : Config} {p : ResponsePayload} (h : p.Wf c) : Response.Wf c ⟨.ok, p⟩ :=
  ⟨fun hne => absurd rfl hne, nofun, h⟩

/-- Every command that answers gives one response, in a form of R70. -/
theorem exec_response_wf {i : Instr} {s t : State} (h : exec i s = .next t) :
    ∃ r, t.responses = s.responses ++ [r] ∧ r.Wf s.cfg := by
  have bare {st : Status} := Response.wf_of_no_payload (st := st) s.cfg
  cases i with
  | ldc d =>
    obtain ⟨_, _, _, _, ⟨_, rfl⟩ | ⟨_, rfl⟩ | ⟨_, _, rfl⟩⟩ := execLdc_next h
    · exact ⟨_, rfl, bare nofun⟩
    · exact ⟨_, rfl, bare nofun⟩
    · exact ⟨⟨.ok, .none⟩, by simp, bare nofun⟩
  | ldi d => obtain ⟨_, _, rfl⟩ := execLdi_next h; exact ⟨⟨.ok, .none⟩, by simp, bare nofun⟩
  | stc r => obtain ⟨_, rfl⟩ := execStc_next h; exact ⟨_, rfl, Response.wf_of_ok (coefResponse_wf s r)⟩
  | sti r => obtain ⟨_, rfl⟩ := execSti_next h; exact ⟨_, rfl, Response.wf_of_ok (intResponse_wf _ _ _)⟩
  | deg r => obtain ⟨_, rfl⟩ := execDeg_next h; exact ⟨_, rfl, Response.wf_of_ok (degResponse_wf s r)⟩
  | coef r idx =>
    obtain ⟨_, ⟨_, rfl⟩ | ⟨_, rfl⟩⟩ := execCoef_next h
    · exact ⟨_, rfl, bare nofun⟩
    · exact ⟨_, rfl, Response.wf_of_ok trivial⟩
  | muln => obtain ⟨_, ⟨_, rfl⟩ | ⟨_, rfl⟩⟩ := execMuln_next h <;> exact ⟨_, rfl, bare nofun⟩
  | mulb m =>
    obtain ⟨_, ⟨_, rfl⟩ | ⟨_, _, rfl⟩ | ⟨_, _, _, _, rfl⟩⟩ := execMulb_next h <;> exact ⟨_, rfl, bare nofun⟩
  | mulc w => obtain ⟨_, ⟨_, rfl⟩ | ⟨_, _, rfl⟩ | ⟨_, _, rfl⟩⟩ := execMulc_next h <;> exact ⟨_, rfl, bare nofun⟩
  | tbld m => obtain ⟨_, ⟨_, rfl⟩ | ⟨_, rfl⟩⟩ := execTbld_next h <;> exact ⟨_, rfl, bare nofun⟩
  | tblq =>
    obtain ⟨_, _, ⟨_, rfl⟩ | ⟨_, _, ⟨_, rfl⟩ | ⟨_, _, _, _, rfl⟩⟩⟩ := execTblq_next h
    · exact ⟨_, rfl, bare nofun⟩
    · exact ⟨_, rfl, bare nofun⟩
    · exact ⟨_, rfl, Response.wf_of_ok trivial⟩
  | tblx => obtain ⟨_, rfl⟩ := execTblx_next h; exact ⟨_, rfl, bare nofun⟩

/-- A command keeps a sound table sound, and any table it leaves is sound (R31). -/
theorem exec_keeps_sound_table {i : Instr} {s t : State} (hs : ∀ tb, s.table = some tb → tb.Sound s.cfg)
    (h : exec i s = .next t) : ∀ tb, t.table = some tb → tb.Sound s.cfg := by
  intro tb htb
  obtain he | ⟨_, he⟩ | ⟨m, hm, ⟨_, he⟩ | ⟨_, _, he⟩⟩ := exec_table h <;> rw [he] at htb
  · exact hs tb htb
  · cases htb
  · obtain ⟨h1, h2⟩ := toNat_bounds_of_goodBlockSize hm
    cases htb
    exact builtTable_sound h1 h2
  · obtain ⟨h1, h2⟩ := toNat_bounds_of_goodBlockSize hm
    cases htb
    exact (ensuredTable_sound hs h1 h2).1

section
variable {w : Word} {s t : State}

/-- A word that answers leaves the parameters as they were, whether it is legal or not. -/
theorem runWord_cfg (h : runWord w s = .next t) : t.cfg = s.cfg := by
  obtain ⟨_, _, rfl⟩ | ⟨i, _, h⟩ := runWord_next h
  · rfl
  · obtain ⟨_, hcfg, _⟩ := exec_gives_one_response h
    exact hcfg

/-- A word that answers leaves the invariant, whatever payload was at hand. -/
theorem runWord_inv (htab : ∀ tb, s.table = some tb → tb.Sound s.cfg) (hres : ∀ r ∈ s.responses, r.Wf s.cfg)
    (h : runWord w s = .next t) : t.Inv := by
  have hcfg := runWord_cfg h
  have hold {r : Response} (hr : r.Wf s.cfg) : ∀ x ∈ s.responses ++ [r], x.Wf s.cfg := by
    simpa [or_imp, forall_and, hr] using hres
  obtain ⟨_, _, rfl⟩ | ⟨i, _, h⟩ := runWord_next h
  · exact ⟨htab, rfl, hold (Response.wf_of_no_payload _ nofun)⟩
  · obtain ⟨_, _, _, hpay, _⟩ := exec_gives_one_response h
    obtain ⟨r, hr, hwf⟩ := exec_response_wf h
    exact ⟨hcfg ▸ exec_keeps_sound_table htab h, hpay, by rw [hr, hcfg]; exact hold hwf⟩

end

theorem applyReset_inv {s : State} (h : ∀ r ∈ s.responses, r.Wf s.cfg) (rest : List Input) :
    (s.applyReset rest).Inv := ⟨nofun, rfl, h⟩

theorem resetOf_inv (c : Config) : (State.resetOf c).Inv := ⟨nofun, rfl, nofun⟩

theorem resetOf_isReset (c : Config) : (State.resetOf c).IsReset where
  pa := BitVec.toNat_zero
  pb := BitVec.toNat_zero
  pr := BitVec.toNat_zero
  tblValid := rfl
  tblM := rfl
  tbl _ := rfl

/-! ## The invariant and reset -/

/-- Settles O18: the four things a step can do, each with its own lemma on what it leaves. -/
theorem everyStepKeepsTheInvariant : Obligations.EveryStepKeepsTheInvariant := by
  intro s t hs h
  obtain ⟨_, rfl⟩ | ⟨c, rest, _, hw⟩ | ⟨rest, _, rfl⟩ | ⟨c, rest, u, _, hw, rfl⟩ := step_next h
  · exact hs
  · exact runWord_inv (s := s.accept rest c.payload) hs.table hs.responses hw
  · exact applyReset_inv hs.responses rest
  · have hcfg : u.cfg = s.cfg := runWord_cfg (s := s.accept rest c.payload) hw
    exact ⟨nofun, rfl, fun r hr => hcfg ▸ hs.responses r hr⟩

/-- Settles O16, by the cases of a step. -/
theorem noStepChangesTheParameters : Obligations.NoStepChangesTheParameters := by
  intro s t h
  obtain ⟨_, rfl⟩ | ⟨c, rest, _, hw⟩ | ⟨rest, _, rfl⟩ | ⟨c, rest, u, _, hw, rfl⟩ := step_next h
  · rfl
  · exact runWord_cfg (s := s.accept rest c.payload) hw
  · rfl
  · exact runWord_cfg (s := s.accept rest c.payload) (t := u) hw

/-- Settles O13, R34's values being those `State.resetOf` writes. -/
theorem resetStateHoldsTheResetValues : Obligations.ResetStateHoldsTheResetValues :=
  ⟨fun c => ⟨resetOf_isReset c, rfl, rfl⟩, resetOf_isReset _⟩

/-- Settles O19: no table, no payload, no response. -/
theorem resetStateMeetsTheInvariant : Obligations.ResetStateMeetsTheInvariant :=
  ⟨resetOf_inv, resetOf_inv _⟩

/-! ## Frames (R24, R25, R31) -/

/-- Settles O48: the registers by `exec_poly_of_not_written`, the table by `exec_table_of_not_written`. -/
theorem commandsWriteOnlyTheirItems : Obligations.CommandsWriteOnlyTheirItems := by
  intro i s t item h hitem hx
  obtain ⟨_, hcfg, hin, _⟩ := exec_gives_one_response h
  refine ⟨?_, hcfg, hin⟩
  have table := fun htbl => (exec_table_of_not_written h (item := item) htbl hitem hx).symm
  cases item with
  | pa => exact (exec_poly_of_not_written h (r := .pa) hitem).symm
  | pb => exact (exec_poly_of_not_written h (r := .pb) hitem).symm
  | pr => exact (exec_poly_of_not_written h (r := .pr) hitem).symm
  | tblValid => exact congrArg Option.isSome (table (by simp))
  | tblM => exact congrArg (Option.map Table.m) (table (by simp))
  | tbl => exact fun idx => by rw [State.tableEntry, State.tableEntry, table (by simp)]

/-- Settles O50: no multiply's row of R24 marks PA or PB as written. -/
theorem multipliesKeepTheirOperands : Obligations.MultipliesKeepTheirOperands := by
  intro i s t hi h
  have hw : StateItem.pa ∉ writtenItems i ∧ StateItem.pb ∉ writtenItems i := by
    cases i <;> simp_all [isMultiply, writtenItems]
  exact ⟨exec_poly_of_not_written h hw.1, exec_poly_of_not_written h hw.2⟩

/-- Settles O52: of the ways a command can leave the table, only the one that keeps it is left. -/
theorem tableMemoryIsUnchangedUnlessBuiltOrDropped : Obligations.TableMemoryIsUnchangedUnlessBuiltOrDropped := by
  intro i s t h hi idx
  suffices t.table = s.table by simp [State.tableEntry, this]
  obtain he | ⟨rfl, he⟩ | ⟨m, hm, ⟨rfl, he⟩ | ⟨rfl, hz, he⟩⟩ := exec_table h
  · exact he
  · have hv : s.tblValid = false := hi
    rw [he, eq_comm]
    simpa [State.tblValid] using hv
  · have := badBlockSize_eq_false_iff.mp hm
    have : m ≤ 0 ∨ (s.cfg.mMax : Int) < m := hi
    omega
  · have := badBlockSize_eq_false_iff.mp hm
    have hnz : ¬ (s.poly .pa = 0 ∨ s.poly .pb = 0) := by rw [← zeroOperand_iff, hz]; simp
    obtain h1 | h1 | h1 | h1 | ⟨tb, htb, htm⟩ := hi
    · omega
    · omega
    · exact absurd (.inl h1) hnz
    · exact absurd (.inr h1) hnz
    · have : tb.m.toNat = m.toNat := by omega
      simp [he, State.ensuredTable, htb, this]

/-! ## The product -/

theorem clmul_of_zeroOperand {s : State} (h : s.zeroOperand = true) : 0 = clmul (s.poly .pa) (s.poly .pb) := by
  obtain h | h := (zeroOperand_iff s).mp h
  · rw [h, clmul_zero_left]
  · rw [h, clmul_zero_right]

theorem ne_zero_of_zeroOperand_eq_false {s : State} (h : s.zeroOperand = false) :
    s.poly .pa ≠ 0 ∧ s.poly .pb ≠ 0 := by
  rw [← not_or, ← zeroOperand_iff, h]
  exact Bool.false_ne_true

/-- The reference product fits PR (R22), so PR holds it whole. -/
theorem poly_pr_of_product {u : State} {v : Nat} {r : Response} (hv : v = clmul (u.poly .pa) (u.poly .pb)) :
    ((u.setProduct v).finish r).poly .pr = clmul (u.poly .pa) (u.poly .pb) := by
  rw [finish_poly, hv]
  exact setProduct_poly_pr u (clmul_lt (poly_pa_lt u) (poly_pb_lt u))

/-- A multiply with a legal parameter leaves the reference product of R14 in PR (R112, R132, R156). -/
theorem legalMultiply_product {i : Instr} {s t : State} (hs : ∀ tb, s.table = some tb → tb.Sound s.cfg)
    (hi : legalMultiply s.cfg i = true) (h : exec i s = .next t) :
    t.poly .pr = clmul (s.poly .pa) (s.poly .pb) := by
  cases i with
  | muln =>
    obtain ⟨_, ⟨hz, rfl⟩ | ⟨_, rfl⟩⟩ := execMuln_next h
    · exact poly_pr_of_product (clmul_of_zeroOperand hz)
    · exact poly_pr_of_product (shiftLoop_start s)
  | mulb m =>
    obtain ⟨_, ⟨hm, rfl⟩ | ⟨_, hz, rfl⟩ | ⟨hm, hz, v, hv, rfl⟩⟩ := execMulb_next h
    · simp only [legalMultiply, Bool.and_eq_true, decide_eq_true_iff] at hi
      rw [badBlockSize_eq_false_iff.mpr hi] at hm
      cases hm
    · exact poly_pr_of_product (clmul_of_zeroOperand hz)
    · obtain ⟨h1, h2⟩ := toNat_bounds_of_goodBlockSize hm
      obtain ⟨ha, hb⟩ := ne_zero_of_zeroOperand_eq_false hz
      obtain ⟨hsound, hm'⟩ := ensuredTable_sound hs h1 h2
      have hholds := hsound.holds
      rw [hm'] at hholds
      rw [blockProduct_eq hholds h1 ha hb] at hv
      injection hv with hv
      exact poly_pr_of_product (u := { s with table := _ }) hv.symm
  | mulc w =>
    simp only [legalMultiply, Bool.and_eq_true, decide_eq_true_iff] at hi
    obtain ⟨_, ⟨hw, rfl⟩ | ⟨_, hz, rfl⟩ | ⟨_, hz, rfl⟩⟩ := execMulc_next h
    · simp only [badWordSize, Bool.or_eq_true, decide_eq_true_iff] at hw
      omega
    · exact poly_pr_of_product (clmul_of_zeroOperand hz)
    · obtain ⟨ha, hb⟩ := ne_zero_of_zeroOperand_eq_false hz
      exact poly_pr_of_product (chunkedProduct_eq (by omega) ha hb)
  | _ => cases hi

/-- Settles O51: both blocks hold the reference product of the same operands. -/
theorem productDependsOnTheOperandsAlone : Obligations.ProductDependsOnTheOperandsAlone := by
  intro i1 i2 s1 s2 t1 t2 hs1 hs2 hi1 hi2 hpa hpb h1 h2
  rw [legalMultiply_product hs1.table hi1 h1, legalMultiply_product hs2.table hi2 h2, hpa, hpb]

/-! ## Two runs of one command -/

/-- What a command does to the six items. -/
inductive Effect where
  | keep
  | setOperand (d : LoadReg) (v : Nat)
  | setProduct (v : Nat)
  | ensureTableAndSetProduct (m v : Nat)
  | buildTable (m : Nat)
  | dropTable

/-- The block after the effect. Only the ensured table is looked up in the block; every other value is fixed. -/
def Effect.apply : Effect → State → State
  | .keep, s => s
  | .setOperand d v, s => s.setOperand d v
  | .setProduct v, s => s.setProduct v
  | .ensureTableAndSetProduct m v, s => { s with table := some (s.ensuredTable m) }.setProduct v
  | .buildTable m, s => s.buildTable m
  | .dropTable, s => s.dropTable

theorem Effect.apply_responses (e : Effect) (s : State) : (e.apply s).responses = s.responses := by
  cases e with
  | setOperand d v => exact setOperand_responses s d v
  | _ => rfl

/-- Two runs end alike: both with one effect and one response, the items `W` agreeing after an OK, or both stopped for
the same reason. -/
inductive EndAlike (W : List StateItem) (s1 s2 : State) : Result → Result → Prop
  | next (e : Effect) (r : Response)
      (written : r.status = .ok → ∀ item ∈ W, StateItem.Same item (e.apply s1) (e.apply s2)) :
      EndAlike W s1 s2 (.next ((e.apply s1).finish r)) (.next ((e.apply s2).finish r))
  | fault (f : Fault) : EndAlike W s1 s2 (.fault f) (.fault f)
  | refused (f : Refusal) : EndAlike W s1 s2 (.refused f) (.refused f)

section
variable {W : List StateItem} {s1 s2 : State}

theorem endAlike_respond (e : Effect) (p : ResponsePayload)
    (h : ∀ item ∈ W, StateItem.Same item (e.apply s1) (e.apply s2)) :
    EndAlike W s1 s2 (respond p (e.apply s1)) (respond p (e.apply s2)) := .next e ⟨.ok, p⟩ fun _ => h

theorem endAlike_raise {st : Status} (h : st ≠ .ok) : EndAlike W s1 s2 (raise st s1) (raise st s2) :=
  .next .keep ⟨st, .none⟩ fun hok => absurd hok h

theorem endAlike_ite {c1 c2 : Prop} [Decidable c1] [Decidable c2] (hc : c1 ↔ c2) {a1 a2 b1 b2 : Result}
    (ha : EndAlike W s1 s2 a1 a2) (hb : EndAlike W s1 s2 b1 b2) :
    EndAlike W s1 s2 (if c1 then a1 else b1) (if c2 then a2 else b2) := by
  by_cases h : c2
  · rwa [if_pos h, if_pos (hc.mpr h)]
  · rwa [if_neg h, if_neg (mt hc.mp h)]

theorem endAlike_withNoPayload (hp : s1.payload = s2.payload) {k1 k2 : Result} (h : EndAlike W s1 s2 k1 k2) :
    EndAlike W s1 s2 (withNoPayload s1 k1) (withNoPayload s2 k2) := by
  unfold withNoPayload
  rw [hp]
  cases s2.payload with
  | none => exact h
  | _ => exact .refused _

theorem endAlike_withCoef (hp : s1.payload = s2.payload) {k1 k2 : Int → List Bool → Result}
    (h : ∀ l cs, EndAlike W s1 s2 (k1 l cs) (k2 l cs)) : EndAlike W s1 s2 (withCoef s1 k1) (withCoef s2 k2) := by
  unfold withCoef
  rw [hp]
  cases s2.payload with
  | coef l cs => exact endAlike_ite Iff.rfl (h _ _) (.refused _)
  | _ => exact .refused _

theorem endAlike_withInt (hp : s1.payload = s2.payload) (hcfg : s1.cfg = s2.cfg) {k1 k2 : Nat → Result}
    (h : ∀ v, EndAlike W s1 s2 (k1 v) (k2 v)) : EndAlike W s1 s2 (withInt s1 k1) (withInt s2 k2) := by
  unfold withInt
  rw [hp]
  cases s2.payload with
  | int w v => exact endAlike_ite (by rw [hcfg]) (h _) (.refused _)
  | _ => exact .refused _

theorem endAlike_withPair (hp : s1.payload = s2.payload) {k1 k2 : Nat → Nat → Result}
    (h : ∀ i j, EndAlike W s1 s2 (k1 i j) (k2 i j)) : EndAlike W s1 s2 (withPair s1 k1) (withPair s2 k2) := by
  unfold withPair
  rw [hp]
  cases s2.payload with
  | pair w => exact h _ _
  | _ => exact .refused _

end

/-! ## Agreeing on an item -/

section
variable {s1 s2 : State}

theorem same_polyItem {r : PolyReg} : StateItem.Same (PolyReg.item r) s1 s2 ↔ s1.poly r = s2.poly r := by
  cases r <;> exact Iff.rfl

theorem same_finish {item : StateItem} {r1 r2 : Response} :
    StateItem.Same item (s1.finish r1) (s2.finish r2) ↔ StateItem.Same item s1 s2 := by
  cases item <;> exact Iff.rfl

theorem setOperand_same (hcfg : s1.cfg = s2.cfg) (d : LoadReg) (v : Nat) :
    StateItem.Same (PolyReg.item d.toPolyReg) (s1.setOperand d v) (s2.setOperand d v) := by
  have h (s : State) : (s.setOperand d v).poly d.toPolyReg = v % 2 ^ s.cfg.cap := by
    cases d <;> exact BitVec.toNat_ofNat v _
  rw [same_polyItem, h, h, hcfg]

theorem setProduct_same (hcfg : s1.cfg = s2.cfg) (v : Nat) :
    StateItem.Same .pr (s1.setProduct v) (s2.setProduct v) := by
  have h (s : State) : (s.setProduct v).poly .pr = v % 2 ^ s.cfg.rcap := BitVec.toNat_ofNat v _
  rw [StateItem.Same, h, h, hcfg]

/-- Two tables that no read and no look at TBL_M tells apart. -/
structure Table.Alike (t1 t2 : Table) : Prop where
  m : t1.m = t2.m
  cells : ∀ idx, Memory.read t1.cells idx = Memory.read t2.cells idx

theorem Table.alike_iff (t1 t2 : Table) :
    t1.Alike t2 ↔ t1.m = t2.m ∧ ∀ idx, Memory.read t1.cells idx = Memory.read t2.cells idx :=
  ⟨fun h => ⟨h.m, h.cells⟩, fun h => ⟨h.1, h.2⟩⟩

theorem Table.Alike.refl (t : Table) : t.Alike t := ⟨rfl, fun _ => rfl⟩

theorem Table.Alike.read {t1 t2 : Table} (h : t1.Alike t2) : t1.read = t2.read := by
  funext idx
  rw [Table.read, Table.read, h.m, h.cells]

/-- The items of the table agree exactly when there is no table in either block or one alike in both. -/
theorem same_tableItems : (∀ item ∈ [StateItem.tblValid, .tblM, .tbl], StateItem.Same item s1 s2) ↔
    Option.Rel Table.Alike s1.table s2.table := by
  simp only [List.forall_mem_cons, StateItem.Same, State.tblValid, State.tblM, State.tableEntry]
  cases s1.table <;> cases s2.table
  · simp
  · simp
  · simp
  · simpa using (Table.alike_iff _ _).symm

theorem ensuredTable_alike (h : Option.Rel Table.Alike s1.table s2.table) (m : Nat) :
    (s1.ensuredTable m).Alike (s2.ensuredTable m) := by
  unfold State.ensuredTable
  generalize s1.table = tb1, s2.table = tb2 at h
  cases h with
  | none => exact .refl _
  | some h =>
    dsimp only
    rw [h.m]
    split
    · exact h
    · exact .refl _

theorem zeroOperand_eq (ha : s1.poly .pa = s2.poly .pa) (hb : s1.poly .pb = s2.poly .pb) :
    s1.zeroOperand = s2.zeroOperand := by rw [State.zeroOperand, State.zeroOperand, ha, hb]

end

/-- MULB looks at a table through its reads alone. -/
theorem blockCoefficients_congr {t1 t2 : Table} (h : t1.read = t2.read) (m a b da db n : Nat) :
    blockCoefficients t1 m a b da db n = blockCoefficients t2 m a b da db n := by
  have hc (k : Nat) : blockCoefficient t1 m a b da db k = blockCoefficient t2 m a b da db k := by
    have : blockContribution t1 m a b k = blockContribution t2 m a b k := by
      funext blk
      rw [blockContribution, blockContribution, h]
    rw [blockCoefficient, blockCoefficient, this]
  induction n with
  | zero => rfl
  | succ n ih => rw [blockCoefficients, blockCoefficients, ih, hc]

theorem setProduct_same_of_mem {s1 s2 : State} (hcfg : s1.cfg = s2.cfg) (v : Nat) :
    ∀ item ∈ [StateItem.pr], StateItem.Same item (s1.setProduct v) (s2.setProduct v) := by
  simpa using setProduct_same hcfg v

section
variable {s1 s2 : State}

theorem execLdc_endAlike (hcfg : s1.cfg = s2.cfg) (hp : s1.payload = s2.payload) (d : LoadReg) :
    EndAlike [PolyReg.item d.toPolyReg] s1 s2 (execLdc d s1) (execLdc d s2) := by
  unfold execLdc
  refine endAlike_withCoef hp fun l cs => ?_
  refine endAlike_ite Iff.rfl (endAlike_raise nofun) ?_
  refine endAlike_ite (by rw [hcfg]) (endAlike_raise nofun) (endAlike_respond (.setOperand d _) _ ?_)
  exact List.forall_mem_singleton.mpr (setOperand_same hcfg d _)

theorem execLdi_endAlike (hcfg : s1.cfg = s2.cfg) (hp : s1.payload = s2.payload) (d : LoadReg) :
    EndAlike [PolyReg.item d.toPolyReg] s1 s2 (execLdi d s1) (execLdi d s2) := by
  unfold execLdi
  refine endAlike_withInt hp hcfg fun v => endAlike_respond (.setOperand d v) _ ?_
  exact List.forall_mem_singleton.mpr (setOperand_same hcfg d _)

theorem execMuln_endAlike (hcfg : s1.cfg = s2.cfg) (hp : s1.payload = s2.payload)
    (ha : s1.poly .pa = s2.poly .pa) (hb : s1.poly .pb = s2.poly .pb) :
    EndAlike [.pr] s1 s2 (execMuln s1) (execMuln s2) := by
  refine endAlike_withNoPayload hp (endAlike_ite (by rw [zeroOperand_eq ha hb]) ?_ ?_)
  · exact endAlike_respond (.setProduct 0) _ (setProduct_same_of_mem hcfg 0)
  · rw [shiftLoop_start, shiftLoop_start, ha, hb]
    exact endAlike_respond (.setProduct _) _ (setProduct_same_of_mem hcfg _)

theorem execMulb_endAlike (hcfg : s1.cfg = s2.cfg) (hp : s1.payload = s2.payload)
    (ha : s1.poly .pa = s2.poly .pa) (hb : s1.poly .pb = s2.poly .pb)
    (htbl : Option.Rel Table.Alike s1.table s2.table) (m : Int) :
    EndAlike [.pr, .tblValid, .tblM, .tbl] s1 s2 (execMulb m s1) (execMulb m s2) := by
  have halike := ensuredTable_alike htbl m.toNat
  refine endAlike_withNoPayload hp (endAlike_ite (by rw [hcfg]) (endAlike_raise nofun) ?_)
  refine endAlike_ite (by rw [zeroOperand_eq ha hb]) ?_ ?_
  · exact endAlike_respond (.setProduct 0) _
      (List.forall_mem_cons.mpr ⟨setProduct_same hcfg 0, same_tableItems.mpr htbl⟩)
  · rw [ha, hb, blockCoefficients_congr halike.read]
    split
    · exact .fault _
    · exact endAlike_respond (.ensureTableAndSetProduct m.toNat _) _ (List.forall_mem_cons.mpr
        ⟨setProduct_same (s1 := { s1 with table := _ }) hcfg _, same_tableItems.mpr (.some halike)⟩)

theorem execMulc_endAlike (hcfg : s1.cfg = s2.cfg) (hp : s1.payload = s2.payload)
    (ha : s1.poly .pa = s2.poly .pa) (hb : s1.poly .pb = s2.poly .pb) (w : Int) :
    EndAlike [.pr] s1 s2 (execMulc w s1) (execMulc w s2) := by
  refine endAlike_withNoPayload hp (endAlike_ite (by rw [hcfg]) (endAlike_raise nofun) ?_)
  refine endAlike_ite (by rw [zeroOperand_eq ha hb]) ?_ ?_
  · exact endAlike_respond (.setProduct 0) _ (setProduct_same_of_mem hcfg 0)
  · rw [ha, hb]
    exact endAlike_respond (.setProduct _) _ (setProduct_same_of_mem hcfg _)

theorem execTbld_endAlike (hcfg : s1.cfg = s2.cfg) (hp : s1.payload = s2.payload) (m : Int) :
    EndAlike [.tblValid, .tblM, .tbl] s1 s2 (execTbld m s1) (execTbld m s2) :=
  endAlike_withNoPayload hp (endAlike_ite (by rw [hcfg]) (endAlike_raise nofun)
    (endAlike_respond (.buildTable m.toNat) _ (same_tableItems.mpr (.some (.refl _)))))

theorem execTblq_endAlike (hp : s1.payload = s2.payload) (htbl : Option.Rel Table.Alike s1.table s2.table) :
    EndAlike [] s1 s2 (execTblq s1) (execTblq s2) := by
  unfold execTblq
  refine endAlike_withPair hp fun i j => ?_
  generalize s1.table = tb1, s2.table = tb2 at htbl ⊢
  cases htbl with
  | none => exact endAlike_raise nofun
  | some h =>
    refine endAlike_ite (by rw [h.m]) (endAlike_raise nofun) ?_
    rw [h.m, h.read]
    split
    · exact endAlike_respond .keep _ nofun
    · exact .fault _

/-- The R half of R24 for one command: blocks that agree on the parameters, the payload and the items it reads end
alike. -/
theorem exec_endAlike {i : Instr} (hcfg : s1.cfg = s2.cfg) (hp : s1.payload = s2.payload)
    (hread : ∀ item ∈ readItems i, StateItem.Same item s1 s2) :
    EndAlike (writtenItems i) s1 s2 (exec i s1) (exec i s2) := by
  have operand {r : PolyReg} (h : PolyReg.item r ∈ readItems i) : s1.poly r = s2.poly r :=
    same_polyItem.mp (hread _ h)
  cases i with
  | ldc d => exact execLdc_endAlike hcfg hp d
  | ldi d => exact execLdi_endAlike hcfg hp d
  | stc r | deg r =>
    refine endAlike_withNoPayload hp ?_
    rw [operand (List.mem_singleton.mpr rfl)]
    exact endAlike_respond .keep _ nofun
  | sti r =>
    refine endAlike_withNoPayload hp ?_
    rw [operand (List.mem_singleton.mpr rfl), hcfg]
    exact endAlike_respond .keep _ nofun
  | coef r idx =>
    refine endAlike_withNoPayload hp (endAlike_ite Iff.rfl (endAlike_raise nofun) ?_)
    rw [operand (List.mem_singleton.mpr rfl)]
    exact endAlike_respond .keep _ nofun
  | muln =>
    exact execMuln_endAlike hcfg hp (operand (r := .pa) (.head _)) (operand (r := .pb) (.tail _ (.head _)))
  | mulb m =>
    exact execMulb_endAlike hcfg hp (operand (r := .pa) (.head _)) (operand (r := .pb) (.tail _ (.head _)))
      (same_tableItems.mp fun item h => hread item (.tail _ (.tail _ h))) m
  | mulc w =>
    exact execMulc_endAlike hcfg hp (operand (r := .pa) (.head _)) (operand (r := .pb) (.tail _ (.head _))) w
  | tbld m => exact execTbld_endAlike hcfg hp m
  | tblq => exact execTblq_endAlike hp (same_tableItems.mp hread)
  | tblx => exact endAlike_withNoPayload hp (endAlike_respond .dropTable _ (List.forall_mem_singleton.mpr rfl))

end

/-- Settles O49: two runs that answer have ended alike. -/
theorem commandsReadOnlyTheirItems : Obligations.CommandsReadOnlyTheirItems := by
  intro i s1 s2 t1 t2 hcfg hp hread h1 h2
  have h := exec_endAlike hcfg hp hread
  rw [h1, h2] at h
  cases h with
  | next e r written =>
    refine ⟨r, ?_, ?_, fun hok item hi => same_finish.mpr (written hok item hi)⟩ <;>
      rw [finish_responses, Effect.apply_responses]

/-! ## Responses are outputs only -/

/-- The block with other responses given before. -/
def State.withResponses (s : State) (rs : List Response) : State := { s with responses := rs }

theorem same_withResponses (item : StateItem) (s : State) (rs : List Response) :
    StateItem.Same item s (s.withResponses rs) := by
  cases item with
  | tbl => exact fun _ => rfl
  | _ => rfl

theorem Effect.apply_withResponses (e : Effect) (s : State) (rs : List Response) :
    e.apply (s.withResponses rs) = (e.apply s).withResponses rs := by
  cases e with
  | setOperand d v => cases d <;> rfl
  | _ => rfl

section
variable {s t : State}

/-- With other responses before it, a command does the same, and the response it gives comes after those. -/
theorem exec_withResponses {i : Instr} (h : exec i s = .next t) (rs : List Response) :
    ∃ r, t.responses = s.responses ++ [r] ∧ exec i (s.withResponses rs) = .next (t.withResponses (rs ++ [r])) := by
  have halike := exec_endAlike (i := i) (s1 := s) (s2 := s.withResponses rs) rfl rfl
    fun item _ => same_withResponses item s rs
  rw [h] at halike
  generalize exec i (s.withResponses rs) = out at halike
  cases halike with
  | next e r _ =>
    refine ⟨r, by rw [finish_responses, Effect.apply_responses], ?_⟩
    rw [Effect.apply_withResponses]
    rfl

theorem runWord_withResponses {w : Word} (h : runWord w s = .next t) (rs : List Response) :
    ∃ r, t.responses = s.responses ++ [r] ∧ runWord w (s.withResponses rs) = .next (t.withResponses (rs ++ [r])) := by
  obtain ⟨hw, hp, rfl⟩ | ⟨i, hw, h⟩ := runWord_next h
  · refine ⟨_, rfl, ?_⟩
    rw [runWord, hw]
    exact withNoPayload_none hp _
  · obtain ⟨r, hr, h⟩ := exec_withResponses h rs
    exact ⟨r, hr, by rwa [runWord, hw]⟩

theorem step_withResponses (h : step s = .next t) (rs : List Response) :
    ∃ new, t.responses = s.responses ++ new ∧ step (s.withResponses rs) = .next (t.withResponses (rs ++ new)) := by
  have step_eq {x : List Input} (hin : s.inputs = x) : (s.withResponses rs).inputs = x := hin
  obtain ⟨hin, rfl⟩ | ⟨c, rest, hin, hw⟩ | ⟨rest, hin, rfl⟩ | ⟨c, rest, u, hin, hw, rfl⟩ := step_next h
  · refine ⟨[], by simp, ?_⟩
    rw [step, step_eq hin, List.append_nil]
  · obtain ⟨r, hr, hw⟩ := runWord_withResponses hw rs
    refine ⟨[r], hr, ?_⟩
    rw [step, step_eq hin]
    exact hw
  · refine ⟨[], by simp, ?_⟩
    rw [step, step_eq hin, List.append_nil]
    rfl
  · obtain ⟨r, _, hw⟩ := runWord_withResponses hw rs
    refine ⟨[], by simp, ?_⟩
    rw [step, step_eq hin, List.append_nil]
    exact congrArg (State.abandon (s.withResponses rs) rest) hw

end

/-- Settles O17: what a step appends is what it appends after any other responses. -/
theorem earlierResponsesAreNeverRead : Obligations.EarlierResponsesAreNeverRead := by
  intro s t rs new h hnew
  obtain ⟨new', hnew', hstep⟩ := step_withResponses h rs
  rw [List.append_cancel_left (hnew.symm.trans hnew')]
  exact hstep

end Sys2Proof.Machine

/-! PROOFS of the statements on how a word is presented and on the table memory (20_memory.md): a word cut into bytes,
and the two commands that read the table. -/

namespace Sys2Proof

/-! ## A word cut into bytes (R45) -/

/-- The four bytes of a word, put back in their order, are the word: each join widens the slice downward. -/
theorem wordOfBytes_slices (w : Word) :
    wordOfBytes (w.extractLsb' 0 8) (w.extractLsb' 8 8) (w.extractLsb' 16 8) (w.extractLsb' 24 8) = w := by
  have h16 : w.extractLsb' 24 8 ++ w.extractLsb' 16 8 = w.extractLsb' 16 16 :=
    BitVec.extractLsb'_append_extractLsb'_eq_extractLsb' rfl
  have h8 : w.extractLsb' 16 16 ++ w.extractLsb' 8 8 = w.extractLsb' 8 24 :=
    BitVec.extractLsb'_append_extractLsb'_eq_extractLsb' rfl
  have h0 : w.extractLsb' 8 24 ++ w.extractLsb' 0 8 = w.extractLsb' 0 32 :=
    BitVec.extractLsb'_append_extractLsb'_eq_extractLsb' rfl
  rw [wordOfBytes, h16, h8, h0]
  exact BitVec.extractLsb'_eq_self

theorem decodeBytes_bytesOfWord_append (w : Word) (rest : List Byte) :
    decodeBytes (bytesOfWord w ++ rest) = (decode w).map fun i => (i, rest) :=
  congrArg (fun v => (decode v).map fun i => (i, rest)) (wordOfBytes_slices w)

theorem bytesOfWord_toNat (w : Word) : (bytesOfWord w).map BitVec.toNat =
    [w.toNat % 256, w.toNat / 256 % 256, w.toNat / 65536 % 256, w.toNat / 16777216] := by
  have := w.isLt
  simp [bytesOfWord, Nat.shiftRight_eq_div_pow]
  omega

/-- Settles O5: the slices of a word join to the word, and each is a quotient by a power of 256. -/
theorem bytesOfAWordDecodeAsTheWord : Obligations.BytesOfAWordDecodeAsTheWord := fun w rest =>
  ⟨decodeBytes_bytesOfWord_append w rest, bytesOfWord_toNat w⟩

end Sys2Proof

namespace Sys2Proof.Machine

/-! ## What a payload form that faults has seen -/

section
variable {s : State} {f : Fault}

theorem withNoPayload_fault {k : Result} (h : withNoPayload s k = .fault f) : k = .fault f := by
  unfold withNoPayload at h
  split at h
  · exact h
  all_goals cases h

theorem withCoef_fault {k : Int → List Bool → Result} (h : withCoef s k = .fault f) :
    ∃ length coeffs, k length coeffs = .fault f := by
  unfold withCoef at h
  split at h
  · cases h
  · split at h
    · exact ⟨_, _, h⟩
    · cases h
  all_goals cases h

theorem withInt_fault {k : Nat → Result} (h : withInt s k = .fault f) : ∃ v, k v = .fault f := by
  unfold withInt at h
  split at h
  · cases h
  · cases h
  · split at h
    · exact ⟨_, h⟩
    · cases h
  · cases h

theorem withPair_fault {k : Nat → Nat → Result} (h : withPair s k = .fault f) : ∃ i j, k i j = .fault f := by
  unfold withPair at h
  split at h
  · cases h
  · cases h
  · cases h
  · exact ⟨_, _, h⟩

/-! ## The two ways a command faults (R41) -/

theorem execLdc_ne_fault (d : LoadReg) : execLdc d s ≠ .fault f := by
  intro h
  obtain ⟨_, _, h⟩ := withCoef_fault h
  split at h
  · cases h
  · split at h <;> cases h

theorem execLdi_ne_fault (d : LoadReg) : execLdi d s ≠ .fault f := by
  intro h
  obtain ⟨_, h⟩ := withInt_fault h
  cases h

theorem execMulb_fault {m : Int} (h : execMulb m s = .fault f) :
    badBlockSize s.cfg m = false ∧ s.zeroOperand = false ∧
      blockCoefficients (s.ensuredTable m.toNat) m.toNat (s.poly .pa) (s.poly .pb) (deg (s.poly .pa)).toNat
        (deg (s.poly .pb)).toNat ((deg (s.poly .pa)).toNat + (deg (s.poly .pb)).toNat + 1) = .error f := by
  replace h := withNoPayload_fault h
  split at h
  · cases h
  · split at h
    · cases h
    · split at h
      · cases h
        exact ⟨Bool.eq_false_iff.mpr ‹_›, Bool.eq_false_iff.mpr ‹_›, ‹_›⟩
      · cases h

theorem execTblq_fault (h : execTblq s = .fault f) :
    ∃ tb i j, s.table = some tb ∧ i < 2 ^ tb.m.toNat ∧ j < 2 ^ tb.m.toNat ∧
      tb.read (tableIndex tb.m.toNat i j) = .error f := by
  obtain ⟨i, j, h⟩ := withPair_fault h
  split at h
  · cases h
  · rename_i tb htb
    split at h
    · cases h
    · rename_i hlt
      rw [not_or, Nat.not_le, Nat.not_le] at hlt
      split at h
      · cases h
      · cases h
        exact ⟨tb, i, j, htb, hlt.1, hlt.2, ‹_›⟩

/-- MULB and TBLQ are the two commands that look an entry up, and no other can fault. -/
theorem exec_fault {i : Instr} (h : exec i s = .fault f) :
    (∃ m, i = .mulb m ∧ execMulb m s = .fault f) ∨ (i = .tblq ∧ execTblq s = .fault f) := by
  cases i with
  | mulb m => exact .inl ⟨m, rfl, h⟩
  | tblq => exact .inr ⟨rfl, h⟩
  | ldc d => exact absurd h (execLdc_ne_fault d)
  | ldi d => exact absurd h (execLdi_ne_fault d)
  | stc r | sti r | deg r | tblx => cases withNoPayload_fault h
  | coef r idx | tbld m | muln =>
    replace h := withNoPayload_fault h
    split at h <;> cases h
  | mulc w =>
    replace h := withNoPayload_fault h
    split at h
    · cases h
    · split at h <;> cases h

/-! ## A sound table answers every read (R31, R41) -/

theorem execMulb_ne_fault (hs : ∀ tb, s.table = some tb → tb.Sound s.cfg) (m : Int) : execMulb m s ≠ .fault f := by
  intro h
  obtain ⟨hm, hz, herr⟩ := execMulb_fault h
  obtain ⟨h1, h2⟩ := toNat_bounds_of_goodBlockSize hm
  obtain ⟨ha, hb⟩ := ne_zero_of_zeroOperand_eq_false hz
  obtain ⟨hsound, hm'⟩ := ensuredTable_sound hs h1 h2
  have hholds := hsound.holds
  rw [hm'] at hholds
  rw [blockProduct_eq hholds h1 ha hb] at herr
  cases herr

theorem execTblq_ne_fault (hs : ∀ tb, s.table = some tb → tb.Sound s.cfg) : execTblq s ≠ .fault f := by
  intro h
  obtain ⟨tb, i, j, htb, hi, hj, herr⟩ := execTblq_fault h
  rw [Table.read_of_holds (hs tb htb).holds hi hj] at herr
  cases herr

theorem runWord_ne_fault (hs : ∀ tb, s.table = some tb → tb.Sound s.cfg) (w : Word) : runWord w s ≠ .fault f := by
  intro h
  unfold runWord at h
  split at h
  · cases withNoPayload_fault h
  · obtain ⟨m, _, h⟩ | ⟨_, h⟩ := exec_fault h
    · exact execMulb_ne_fault hs m h
    · exact execTblq_ne_fault hs h

theorem abandon_fault {rest : List Input} {done : Result} (h : s.abandon rest done = .fault f) : done = .fault f := by
  cases done with
  | next t => cases h
  | fault g => exact h
  | refused r => cases h

end

/-- Settles O20: whatever the host gives, the word runs on a block with a sound table, and both commands that read the
table look up only entries such a table holds. -/
theorem noCommandReadsAnUnmappedTableLocation : Obligations.NoCommandReadsAnUnmappedTableLocation := by
  intro s f hs h
  unfold step at h
  split at h
  · cases h
  · rename_i c rest _
    exact runWord_ne_fault (s := s.accept rest c.payload) hs.table c.word h
  · cases h
  · rename_i c rest _
    exact runWord_ne_fault (s := s.accept rest c.payload) hs.table c.word (abandon_fault h)

end Sys2Proof.Machine

/-! PROOFS of the statements on the encoding (30_encoding.md): the decoder, the encoder and the match and mask table,
the words and pairs the block answers or refuses, the assembler and its text. -/

namespace Sys2Proof

/-! ## A format accepts exactly the words whose unused fields are 0 (R62) -/

section
variable {w : Word} {j : Instr}

theorem formatN_eq_some {i : Instr} : formatN w i = some j ↔ immField w = 0 ∧ pselField w = 0 ∧ i = j := by
  simp [formatN, and_assoc]

theorem formatR_eq_some {mk : PolyReg → Instr} :
    formatR w mk = some j ↔ immField w = 0 ∧ ∃ r, polyRegOf (pselField w) = some r ∧ mk r = j := by
  simp [formatR]

theorem formatRLoad_eq_some {mk : LoadReg → Instr} :
    formatRLoad w mk = some j ↔ immField w = 0 ∧ ∃ d, loadRegOf (pselField w) = some d ∧ mk d = j := by
  simp [formatRLoad]

theorem formatI_eq_some {mk : Int → Instr} :
    formatI w mk = some j ↔ pselField w = 0 ∧ mk (immField w).toInt = j := by
  simp [formatI]

theorem formatRI_eq_some {mk : PolyReg → Int → Instr} :
    formatRI w mk = some j ↔ ∃ r, polyRegOf (pselField w) = some r ∧ mk r (immField w).toInt = j := by
  simp [formatRI]

end

/-! ## The operand fields of an instruction -/

/-- The psel field of an instruction's word, 0 where its format does not use it (R62, R64). -/
def Instr.psel : Instr → BitVec 2
  | .ldc d => pselOf d.toPolyReg
  | .ldi d => pselOf d.toPolyReg
  | .stc r => pselOf r
  | .sti r => pselOf r
  | .deg r => pselOf r
  | .coef r _ => pselOf r
  | _ => 0

/-- The immediate of an instruction, 0 where its format does not use it (R62, R65). -/
def Instr.imm : Instr → Int
  | .coef _ idx => idx
  | .mulb m => m
  | .mulc w => w
  | .tbld m => m
  | _ => 0

theorem encode_eq_wordOfFields (i : Instr) :
    encode i = wordOfFields i.imm i.psel (Laws.EncodedFields.opcode i) := by
  cases i <;> rfl

theorem wf_eq_immInRange (i : Instr) : i.wf = immInRange i.imm := by
  cases i <;> rfl

/-- The fields of the word are those of the instruction. -/
structure Carries (w : Word) (i : Instr) : Prop where
  rsv : rsvField w = 0
  opc : opcField w = Laws.EncodedFields.opcode i
  psel : pselField w = i.psel
  imm : (immField w).toInt = i.imm

theorem Carries.encode_eq {w : Word} {i : Instr} (h : Carries w i) : encode i = w := by
  rw [encode_eq_wordOfFields, ← h.imm, ← h.psel, ← h.opc, wordOfFields_fields h.rsv]

theorem Carries.wf {w : Word} {i : Instr} (h : Carries w i) : i.wf = true := by
  rw [wf_eq_immInRange, ← h.imm]
  exact immInRange_toInt _

/-! ## The decoder against the encoder (R75) -/

theorem carries_of_decode {w : Word} {i : Instr} (h : decode w = some i) : Carries w i := by
  unfold decode at h
  split at h
  case isFalse => cases h
  rename_i hrsv
  have opc {n : Nat} {i : Instr} (hn : (opcField w).toNat = n) (hi : (Laws.EncodedFields.opcode i).toNat = n) :
      opcField w = Laws.EncodedFields.opcode i := BitVec.eq_of_toNat_eq (hn.trans hi.symm)
  split at h <;> rename_i hopc
  case h_1 | h_2 =>
    obtain ⟨himm, d, hd, rfl⟩ := formatRLoad_eq_some.mp h
    exact ⟨hrsv, opc hopc rfl, (pselOf_of_loadRegOf hd).symm, by rw [himm]; rfl⟩
  case h_3 | h_4 | h_5 =>
    obtain ⟨himm, r, hr, rfl⟩ := formatR_eq_some.mp h
    exact ⟨hrsv, opc hopc rfl, (pselOf_of_polyRegOf hr).symm, by rw [himm]; rfl⟩
  case h_6 =>
    obtain ⟨r, hr, rfl⟩ := formatRI_eq_some.mp h
    exact ⟨hrsv, opc hopc rfl, (pselOf_of_polyRegOf hr).symm, rfl⟩
  case h_7 | h_11 | h_12 =>
    obtain ⟨himm, hpsel, rfl⟩ := formatN_eq_some.mp h
    exact ⟨hrsv, opc hopc rfl, hpsel, by rw [himm]; rfl⟩
  case h_8 | h_9 | h_10 =>
    obtain ⟨hpsel, rfl⟩ := formatI_eq_some.mp h
    exact ⟨hrsv, opc hopc rfl, hpsel, rfl⟩
  case h_13 => cases h

/-- Settles O1: the encoder writes each field so that the format of its opcode reads it back. -/
theorem decodeAfterEncode : Obligations.DecodeAfterEncode := by
  intro i hi
  have hfit : (BitVec.ofInt 16 i.imm).toInt = i.imm := toInt_ofInt_of_immInRange (wf_eq_immInRange i ▸ hi)
  obtain ⟨hopc, hrsv⟩ := Laws.EncodedFields.of_fields (encode_eq_wordOfFields i)
  have hpsel : pselField (encode i) = i.psel := by rw [encode_eq_wordOfFields, pselField_wordOfFields]
  have himm : immField (encode i) = BitVec.ofInt 16 i.imm := by rw [encode_eq_wordOfFields, immField_wordOfFields]
  rw [decode, if_pos hrsv, hopc]
  cases i with
  | ldc d | ldi d => exact formatRLoad_eq_some.mpr ⟨himm, d, hpsel ▸ loadRegOf_pselOf d, rfl⟩
  | stc r | sti r | deg r => exact formatR_eq_some.mpr ⟨himm, r, hpsel ▸ polyRegOf_pselOf r, rfl⟩
  | coef r idx =>
    exact formatRI_eq_some.mpr ⟨r, hpsel ▸ polyRegOf_pselOf r, himm ▸ congrArg _ hfit⟩
  | muln | tblq | tblx => exact formatN_eq_some.mpr ⟨himm, hpsel, rfl⟩
  | mulb m | mulc m | tbld m => exact formatI_eq_some.mpr ⟨hpsel, himm ▸ congrArg _ hfit⟩

/-- Settles O2: a word that decodes carries the fields of what it decodes to. -/
theorem encodeAfterDecode : Obligations.EncodeAfterDecode := fun _ _ h =>
  ⟨(carries_of_decode h).encode_eq, (carries_of_decode h).wf⟩

theorem decode_eq_some_iff {w : Word} {i : Instr} : decode w = some i ↔ w = encode i ∧ i.wf = true := by
  constructor
  · intro h
    obtain ⟨he, hwf⟩ := encodeAfterDecode w i h
    exact ⟨he.symm, hwf⟩
  · rintro ⟨rfl, hwf⟩
    exact decodeAfterEncode i hwf

/-! ## Which words are legal (R72) -/

theorem polyRegOf_isSome {psel : BitVec 2} : (polyRegOf psel).isSome ↔ psel ≠ 3 := by
  revert psel
  decide

theorem loadRegOf_isSome {psel : BitVec 2} : (loadRegOf psel).isSome ↔ psel ≠ 3 ∧ psel ≠ 2 := by
  revert psel
  decide

section
variable {w : Word}

theorem formatN_isSome {i : Instr} : (formatN w i).isSome ↔ immField w = 0 ∧ pselField w = 0 := by
  simp [formatN]

theorem formatR_isSome {mk : PolyReg → Instr} :
    (formatR w mk).isSome ↔ immField w = 0 ∧ pselField w ≠ 3 := by
  rw [← polyRegOf_isSome]
  unfold formatR
  split <;> simp_all

theorem formatRLoad_isSome {mk : LoadReg → Instr} :
    (formatRLoad w mk).isSome ↔ immField w = 0 ∧ pselField w ≠ 3 ∧ pselField w ≠ 2 := by
  rw [← loadRegOf_isSome]
  unfold formatRLoad
  split <;> simp_all

theorem formatI_isSome {mk : Int → Instr} : (formatI w mk).isSome ↔ pselField w = 0 := by
  simp [formatI]

theorem formatRI_isSome {mk : PolyReg → Int → Instr} : (formatRI w mk).isSome ↔ pselField w ≠ 3 := by
  rw [← polyRegOf_isSome]
  simp [formatRI]

end

/-- None of the clauses (a) to (e) of R72 applies to the word. -/
def LegalWord (w : Word) : Prop :=
  (opcField w).toNat ∈ [0x01, 0x02, 0x03, 0x04, 0x05, 0x06, 0x10, 0x11, 0x12, 0x20, 0x21, 0x22] ∧
    ((opcField w).toNat ∈ [0x01, 0x02, 0x03, 0x04, 0x05, 0x10, 0x21, 0x22] → immField w = 0) ∧
    ((opcField w).toNat ∈ [0x10, 0x11, 0x12, 0x20, 0x21, 0x22] → pselField w = 0) ∧
    rsvField w = 0 ∧ pselField w ≠ 3 ∧ ((opcField w).toNat ∈ [0x01, 0x02] → pselField w ≠ 2)

/-- The decoder accepts the legal words and no other: per opcode, what its format demands. -/
theorem decode_isSome_iff (w : Word) : (decode w).isSome ↔ LegalWord w := by
  rw [decode]
  split
  case isFalse h => exact ⟨nofun, fun ⟨_, _, _, hrsv, _⟩ => absurd hrsv h⟩
  rename_i hrsv
  split <;> rename_i hopc <;> rw [LegalWord]
  case h_1 | h_2 => simp [formatRLoad_isSome, hopc, hrsv]
  case h_3 | h_4 | h_5 => simp [formatR_isSome, hopc, hrsv]
  case h_6 => simp [formatRI_isSome, hopc, hrsv]
  case h_7 | h_11 | h_12 => simp +contextual [formatN_isSome, hopc, hrsv]
  case h_8 | h_9 | h_10 => simp +contextual [formatI_isSome, hopc, hrsv]
  case h_13 => simp_all

theorem decode_eq_none_iff (w : Word) : decode w = none ↔ ¬ LegalWord w := by
  rw [← decode_isSome_iff, Option.not_isSome_iff_eq_none]

/-- The clauses of R72, on the bits of the word. -/
theorem not_legalWord_iff (w : Word) : ¬ LegalWord w ↔
    (w.toNat % 256 ∉ [0x01, 0x02, 0x03, 0x04, 0x05, 0x06, 0x10, 0x11, 0x12, 0x20, 0x21, 0x22]) ∨
      (w.toNat / 65536 ≠ 0 ∧ w.toNat % 256 ∈ [0x01, 0x02, 0x03, 0x04, 0x05, 0x10, 0x21, 0x22]) ∨
      (w.toNat / 256 % 4 ≠ 0 ∧ w.toNat % 256 ∈ [0x10, 0x11, 0x12, 0x20, 0x21, 0x22]) ∨
      w.toNat / 1024 % 64 ≠ 0 ∨
      w.toNat / 256 % 4 = 3 ∨
      (w.toNat / 256 % 4 = 2 ∧ w.toNat % 256 ∈ [0x01, 0x02]) := by
  simp only [LegalWord, ← BitVec.toNat_inj, ne_eq, opcField_toNat, immField_toNat, rsvField_toNat, pselField_toNat,
    BitVec.reduceToNat]
  tauto

/-! ## The match and mask table (R63) -/

theorem word_ext_iff {v w : Word} : v = w ↔ immField v = immField w ∧ rsvField v = rsvField w ∧
    pselField v = pselField w ∧ opcField v = opcField w := by
  constructor
  · rintro rfl
    exact ⟨rfl, rfl, rfl, rfl⟩
  · simp only [← BitVec.toNat_inj, immField_toNat, rsvField_toNat, pselField_toNat, opcField_toNat]
    omega

/-- A mask is applied field by field. -/
theorem and_eq_iff_fields {w mask pattern : Word} : w &&& mask = pattern ↔
    immField w &&& immField mask = immField pattern ∧ rsvField w &&& rsvField mask = rsvField pattern ∧
      pselField w &&& pselField mask = pselField pattern ∧ opcField w &&& opcField mask = opcField pattern := by
  rw [word_ext_iff]
  simp only [immField, rsvField, pselField, opcField, BitVec.extractLsb'_and]

/-- Every row looks at the whole opcode and at the whole reserved field, which must be 0. -/
theorem opcodeRows_opc_rsv : ∀ row ∈ opcodeRows, opcField row.mask = BitVec.allOnes 8 ∧
    rsvField row.mask = BitVec.allOnes 6 ∧ rsvField row.pattern = 0 := by decide

theorem imm_and_mask (imm : Imm16) : imm &&& 65535#16 = imm := BitVec.and_allOnes

theorem psel_and_three (psel : BitVec 2) : psel &&& 3#2 = psel := BitVec.and_allOnes

theorem psel_and_two_eq_zero {psel : BitVec 2} : psel &&& 2#2 = 0#2 ↔ psel ≠ 3#2 ∧ psel ≠ 2#2 := by
  revert psel
  decide

theorem psel_ne_three_of_eq_zero {psel : BitVec 2} (h : psel = 0#2) : psel ≠ 3#2 := by
  rw [h]
  decide

/-- A row selects the legal words of its opcode. -/
theorem selects_iff {row : OpcodeRow} (h : row ∈ opcodeRows) (w : Word) :
    row.selects w = true ↔ LegalWord w ∧ opcField w = opcField row.pattern := by
  obtain ⟨hopc, hrsv, hrsv0⟩ := opcodeRows_opc_rsv row h
  rw [OpcodeRow.selects, Bool.and_eq_true, decide_eq_true_iff, and_eq_iff_fields, hopc, hrsv, hrsv0,
    BitVec.and_allOnes, BitVec.and_allOnes, LegalWord]
  by_cases hw : opcField w = opcField row.pattern
  case neg => simp [hw]
  rw [hw]
  generalize immField w = imm, pselField w = psel, rsvField w = rsv
  have hzero : psel = 0#2 → psel ≠ 3#2 := psel_ne_three_of_eq_zero
  simp only [opcodeRows, List.mem_cons, List.not_mem_nil, or_false] at h
  rcases h with rfl | rfl | rfl | rfl | rfl | rfl | rfl | rfl | rfl | rfl | rfl | rfl
  all_goals simp [immField, opcField, pselField, imm_and_mask, psel_and_three, psel_and_two_eq_zero]
  all_goals tauto

theorem mnemonic_eq_iff {row : OpcodeRow} (h : row ∈ opcodeRows) (i : Instr) :
    i.mnemonic = row.mnemonic ↔ Laws.EncodedFields.opcode i = opcField row.pattern := by
  simp only [opcodeRows, List.mem_cons, List.not_mem_nil, or_false] at h
  rcases h with rfl | rfl | rfl | rfl | rfl | rfl | rfl | rfl | rfl | rfl | rfl | rfl <;>
    cases i <;> simp [Instr.mnemonic, Laws.EncodedFields.opcode, opcField]

/-- Settles O3: both sides say that the word is legal and carries the row's opcode. -/
theorem opcodeRowsSelectTheDecodedCommand : Obligations.OpcodeRowsSelectTheDecodedCommand := by
  intro row hrow w
  rw [selects_iff hrow, ← decode_isSome_iff, Option.isSome_iff_exists, Option.map_eq_some_iff]
  constructor
  · rintro ⟨i, hi, hm⟩
    exact ⟨⟨i, hi⟩, (carries_of_decode hi).opc.trans ((mnemonic_eq_iff hrow i).mp hm)⟩
  · rintro ⟨⟨i, hi⟩, hopc⟩
    exact ⟨i, hi, (mnemonic_eq_iff hrow i).mpr ((carries_of_decode hi).opc.symm.trans hopc)⟩

end Sys2Proof

namespace Sys2Proof.Machine

/-! ## Which payloads a command refuses (R66) -/

section
variable {s : State} {r : Refusal}

theorem withNoPayload_refused_iff {k : Result} (hk : k ≠ .refused r) :
    withNoPayload s k = .refused r ↔ r = .payloadIllFormed ∧ payloadFits s.cfg .none s.payload = false := by
  unfold withNoPayload
  cases s.payload <;> simp [payloadFits, Payload.kind, Payload.wf, hk, eq_comm (a := r)]

theorem withCoef_refused_iff {k : Int → List Bool → Result} (hk : ∀ l cs, k l cs ≠ .refused r) :
    withCoef s k = .refused r ↔ r = .payloadIllFormed ∧ payloadFits s.cfg .coef s.payload = false := by
  unfold withCoef
  cases s.payload with
  | coef l cs => by_cases h : (Payload.coef l cs).wf <;> simp [payloadFits, Payload.kind, hk, h, eq_comm (a := r)]
  | _ => simp [payloadFits, Payload.kind, eq_comm (a := r)]

theorem withInt_refused_iff {k : Nat → Result} (hk : ∀ v, k v ≠ .refused r) :
    withInt s k = .refused r ↔ r = .payloadIllFormed ∧ payloadFits s.cfg .int s.payload = false := by
  unfold withInt
  cases s.payload with
  | int width v =>
    by_cases h : width = s.cfg.cap <;> simp [payloadFits, Payload.kind, Payload.wf, hk, h, eq_comm (a := r)]
  | _ => simp [payloadFits, Payload.kind, eq_comm (a := r)]

theorem withPair_refused_iff {k : Nat → Nat → Result} (hk : ∀ i j, k i j ≠ .refused r) :
    withPair s k = .refused r ↔ r = .payloadIllFormed ∧ payloadFits s.cfg .pair s.payload = false := by
  unfold withPair
  cases s.payload <;> simp [payloadFits, Payload.kind, Payload.wf, hk, eq_comm (a := r)]

/-- An instruction refuses exactly the payloads that are not what it calls for, and for that reason. -/
theorem exec_refused_iff (i : Instr) :
    exec i s = .refused r ↔ r = .payloadIllFormed ∧ payloadFits s.cfg i.payloadKind s.payload = false := by
  cases i with
  | ldc d =>
    rw [exec, execLdc]
    refine withCoef_refused_iff fun length coeffs => ?_
    split
    · nofun
    · split <;> nofun
  | ldi d =>
    rw [exec, execLdi]
    refine withInt_refused_iff fun v => ?_
    nofun
  | stc r | sti r | deg r | tblx => exact withNoPayload_refused_iff nofun
  | coef r idx | tbld m | muln => exact withNoPayload_refused_iff (by split <;> nofun)
  | mulb m =>
    refine withNoPayload_refused_iff ?_
    split
    · nofun
    · split
      · nofun
      · split <;> nofun
  | mulc w =>
    refine withNoPayload_refused_iff ?_
    split
    · nofun
    · split <;> nofun
  | tblq =>
    rw [exec, execTblq]
    refine withPair_refused_iff fun i j => ?_
    split
    · nofun
    · split
      · nofun
      · split <;> nofun

/-- The same of a word, legal or not: an illegal word calls for no payload (R197). -/
theorem runWord_refused_iff (w : Word) :
    runWord w s = .refused r ↔
      r = .payloadIllFormed ∧ payloadFits s.cfg (wordPayloadKind w) s.payload = false := by
  rw [runWord, wordPayloadKind]
  cases decode w with
  | none => exact withNoPayload_refused_iff nofun
  | some i => exact exec_refused_iff i

end

/-! ## A step on a command -/

section
variable {s : State} {c : Command} {rest : List Input}

theorem step_command (h : s.inputs = .command c :: rest) :
    step s = runWord c.word (s.accept rest c.payload) := by
  rw [step, h]

theorem step_command_refused_iff (h : s.inputs = .command c :: rest) {r : Refusal} :
    step s = .refused r ↔ r = .payloadIllFormed ∧ Command.wellFormed s.cfg c = false := by
  rw [step_command h]
  exact runWord_refused_iff c.word

theorem runWord_ended {w : Word} {t : State} (h : runWord w s = .next t) : ∃ r, s.Ended t r := by
  obtain ⟨_, _, rfl⟩ | ⟨i, _, h⟩ := runWord_next h
  · exact ⟨_, rfl, rfl, rfl, rfl⟩
  · obtain ⟨r, hcfg, hin, hpay, hres⟩ := exec_gives_one_response h
    exact ⟨r, hcfg, hin, hpay, hres⟩

end

/-- Settles O8: the step takes the command and decodes its word. -/
theorem stepRunsTheDecodedCommand : Obligations.StepRunsTheDecodedCommand := by
  intro s c rest i hin hw
  rw [step_command hin, runWord, hw]
  rfl

/-- Settles O4: the decoder accepts the legal words alone, and an illegal one without a payload is answered by
`illegalCommand`, which writes none of the six items. -/
theorem illegalWordsAreAnsweredAndChangeNothing : Obligations.IllegalWordsAreAnsweredAndChangeNothing := by
  refine ⟨fun w => (decode_eq_none_iff w).trans (not_legalWord_iff w), fun s w rest hw hin => ?_, by decide⟩
  refine ⟨(s.accept rest .none).finish ⟨.illegalCommand, .none⟩, ?_, ⟨rfl, rfl, rfl, rfl⟩, fun r => ?_, rfl⟩
  · rw [step_command hin, runWord, hw]
    rfl
  · rw [finish_poly, accept_poly]

/-- Settles O9: refusal goes through the payload forms alone, and each lets through exactly what fits. -/
theorem exactlyIllFormedPairsAreRefused : Obligations.ExactlyIllFormedPairsAreRefused := by
  intro s c rest hin
  have refused {r : Refusal} := step_command_refused_iff hin (r := r)
  exact ⟨⟨fun ⟨_, hr⟩ => (refused.mp hr).2, fun hill => ⟨_, refused.mpr ⟨rfl, hill⟩⟩⟩,
    fun _ hr => (refused.mp hr).1⟩

/-- Settles O10: a well-formed command is not refused, a sound table lets none fault, and a command that answers gives
one response. -/
theorem everyCommandGetsOneResponse : Obligations.EveryCommandGetsOneResponse := by
  intro s c rest hs hin hc
  cases h : step s with
  | next t =>
    rw [step_command hin] at h
    obtain ⟨r, hcfg, hinputs, hpay, hres⟩ := runWord_ended h
    exact ⟨t, r, rfl, hcfg, hinputs, hpay, hres⟩
  | fault f => exact absurd h (noCommandReadsAnUnmappedTableLocation s f hs)
  | refused r =>
    obtain ⟨_, hill⟩ := (step_command_refused_iff hin).mp h
    rw [hc] at hill
    cases hill

/-! ## The payload of a line (R67 to R69) -/

/-- The stated lengths that give a payload are those of 32 signed bits with a list as long as they demand. -/
theorem coefPayload_eq_some_iff {stated : Int} {cs : List Bool} {p : Payload} :
    coefPayload stated cs = some p ↔
      ∃ length : BitVec 32, p = .coef length cs ∧ length.toInt = stated ∧ (cs.length : Int) = max stated 0 := by
  unfold coefPayload
  constructor
  · intro h
    split at h
    · rename_i hs
      obtain ⟨h1, h2, h3⟩ := hs
      cases h
      refine ⟨_, rfl, ?_, by omega⟩
      rw [BitVec.toInt_ofInt]
      exact Int.bmod_eq_of_le (by omega) (by omega)
    · cases h
  · rintro ⟨length, rfl, rfl, hlen⟩
    have h1 := BitVec.le_toInt length
    have h2 := BitVec.toInt_lt (x := length)
    rw [if_pos (by omega), BitVec.ofInt_toInt]

/-- The word of P-PAIR holds i in its upper half and j in its lower (R69). -/
theorem pairWord_toNat {i j : Nat} (hi : i ≤ 65535) (hj : j ≤ 65535) :
    (BitVec.ofNat 16 i ++ BitVec.ofNat 16 j).toNat = i * 65536 + j := by
  rw [BitVec.toNat_append, BitVec.toNat_ofNat, BitVec.toNat_ofNat, Nat.mod_eq_of_lt (by omega),
    Nat.mod_eq_of_lt (by omega), ← Nat.shiftLeft_add_eq_or_of_lt (by omega), Nat.shiftLeft_eq]

/-- A line has a payload exactly when its integers are in range, and it is then the one the line writes. -/
theorem payload_eq_some_iff {c : Config} {line : AsmLine} {p : Payload} :
    line.payload c = some p ↔ line.Gives c p := by
  cases line with
  | ldc d cs => simp [AsmLine.payload, AsmLine.Gives, coefPayload_eq_some_iff]
  | ldcRaw d stated cs => exact coefPayload_eq_some_iff
  | ldi d v =>
    rw [AsmLine.payload, AsmLine.Gives]
    constructor
    · intro h
      split at h
      · cases h
        exact ⟨_, rfl, (BitVec.toNat_ofNat v _).trans (Nat.mod_eq_of_lt ‹_›)⟩
      · cases h
    · rintro ⟨x, rfl, rfl⟩
      rw [if_pos x.isLt, BitVec.ofNat_toNat, BitVec.setWidth_eq]
  | tblq i j =>
    rw [AsmLine.payload, AsmLine.Gives]
    constructor
    · intro h
      split at h
      · rename_i hs
        obtain ⟨hi, hj⟩ := hs
        have hword := pairWord_toNat hi hj
        cases h
        exact ⟨_, rfl, by omega, by omega⟩
      · cases h
    · rintro ⟨word, rfl, rfl, rfl⟩
      have hi : word.toNat / 65536 ≤ 65535 := by have := word.isLt; omega
      have hj : word.toNat % 65536 ≤ 65535 := by omega
      rw [if_pos ⟨hi, hj⟩, Option.some_inj, Payload.pair.injEq, ← BitVec.toNat_inj, pairWord_toNat hi hj]
      omega
  | _ => simp [AsmLine.payload, AsmLine.Gives, eq_comm (a := p)]

/-! ## The command of a line (R78, R80) -/

/-- What a line writes is a payload its command calls for. -/
theorem payloadFits_of_gives {c : Config} {line : AsmLine} {p : Payload} (h : line.Gives c p) :
    payloadFits c line.instr.payloadKind p = true := by
  cases line with
  | ldc d cs =>
    obtain ⟨length, rfl, hlen⟩ := h
    simp [payloadFits, AsmLine.instr, Instr.payloadKind, Payload.kind, Payload.wf, hlen]
  | ldcRaw d stated cs =>
    obtain ⟨length, rfl, rfl, hlen⟩ := h
    have : cs.length = length.toInt.toNat := by omega
    simp [payloadFits, AsmLine.instr, Instr.payloadKind, Payload.kind, Payload.wf, this]
  | ldi d v =>
    obtain ⟨x, rfl, _⟩ := h
    simp [payloadFits, AsmLine.instr, Instr.payloadKind, Payload.kind, Payload.wf]
  | tblq i j =>
    obtain ⟨word, rfl, _⟩ := h
    rfl
  | _ =>
    cases h
    rfl

theorem assemble_eq_some_iff {c : Config} {line : AsmLine} {cmd : Command} :
    assemble c line = some cmd ↔ decode cmd.word = some line.instr ∧ line.Gives c cmd.payload := by
  rw [decode_eq_some_iff, ← payload_eq_some_iff, assemble]
  obtain ⟨word, payload⟩ := cmd
  by_cases h : line.instr.wf = true <;> simp [h, and_comm, eq_comm (a := word)]

theorem wellFormed_of_assemble {c : Config} {line : AsmLine} {cmd : Command} (h : assemble c line = some cmd) :
    Command.wellFormed c cmd = true := by
  obtain ⟨hword, hgives⟩ := assemble_eq_some_iff.mp h
  rw [Command.wellFormed, wordPayloadKind, hword]
  exact payloadFits_of_gives hgives

/-- A text that assembles is one whose pieces are read as a line that assembles. -/
theorem line_of_assembleText {c : Config} {text : String} {cmd : Command} (h : assembleText c text = some cmd) :
    ∃ m ts line, lexLine text.toList [] = .word m :: ts ∧ readLine (String.ofList m) ts = some line ∧
      assemble c line = some cmd := by
  unfold assembleText at h
  split at h
  · obtain ⟨line, hline, hcmd⟩ := Option.bind_eq_some_iff.mp h
    exact ⟨_, _, line, ‹_›, hline, hcmd⟩
  · cases h

/-- Settles O7: a line's word is the encoding of its instruction, and its payload is the one it writes. -/
theorem assembledLinesAreCommands : Obligations.AssembledLinesAreCommands := by
  refine ⟨fun c line cmd => ⟨assemble_eq_some_iff, wellFormed_of_assemble⟩, fun c text cmd h => ?_, fun c => ?_⟩
  · obtain ⟨m, ts, line, hlex, hread, hcmd⟩ := line_of_assembleText h
    obtain ⟨hword, hgives⟩ := assemble_eq_some_iff.mp hcmd
    exact ⟨m, ts, line, hlex, hread, hcmd, hword, hgives⟩
  · exact ⟨rfl, rfl⟩

/-! ## Reading the pieces of a line (R78) -/

theorem readPolyReg_eq_some_iff {w : List Char} {r : PolyReg} : readPolyReg w = some r ↔ w = PolyReg.name r := by
  unfold readPolyReg
  cases r <;> grind [PolyReg.name]

theorem readLoadReg_eq_some_iff {w : List Char} {d : LoadReg} :
    readLoadReg w = some d ↔ w = PolyReg.name d.toPolyReg := by
  unfold readLoadReg
  cases d <;> grind [PolyReg.name, LoadReg.toPolyReg]

theorem readCoefficient_eq_some_iff {w : List Char} {b : Bool} :
    readCoefficient w = some b ↔ AsmToken.word w = coefficientWord b := by
  unfold readCoefficient
  cases b <;> grind [coefficientWord]

/-- The pieces of a list after its first coefficient. -/
def moreCoefficientTokens (bs : List Bool) : List AsmToken :=
  (bs.flatMap fun x => [.comma, coefficientWord x]) ++ [.closeList]

theorem readMoreCoefficients_eq_some_iff (ts : List AsmToken) (bs : List Bool) :
    readMoreCoefficients ts = some bs ↔ ts = moreCoefficientTokens bs := by
  constructor
  · intro h
    fun_induction readMoreCoefficients ts generalizing bs with
    | case1 => cases h; rfl
    | case2 w rest ih =>
      obtain ⟨b, hb, h⟩ := Option.bind_eq_some_iff.mp h
      obtain ⟨bs, hbs, rfl⟩ := Option.map_eq_some_iff.mp h
      rw [readCoefficient_eq_some_iff.mp hb, ih bs hbs]
      rfl
    | case3 => cases h
  · rintro rfl
    induction bs with
    | nil => rfl
    | cons b bs ih =>
      have hb := readCoefficient_eq_some_iff (b := b).mpr rfl
      have : moreCoefficientTokens (b :: bs) = .comma :: coefficientWord b :: moreCoefficientTokens bs := rfl
      rw [this, coefficientWord, readMoreCoefficients, hb, ih]
      rfl

theorem readCoefficients_eq_some_iff {ts : List AsmToken} {cs : List Bool} :
    readCoefficients ts = some cs ↔ ts = coefficientTokens cs := by
  constructor
  · intro h
    unfold readCoefficients at h
    split at h
    · cases h; rfl
    · obtain ⟨b, hb, h⟩ := Option.bind_eq_some_iff.mp h
      obtain ⟨bs, hbs, rfl⟩ := Option.map_eq_some_iff.mp h
      rw [readCoefficient_eq_some_iff.mp hb, (readMoreCoefficients_eq_some_iff _ _).mp hbs]
      rfl
    · cases h
  · rintro rfl
    cases cs with
    | nil => rfl
    | cons b bs =>
      have hb := readCoefficient_eq_some_iff (b := b).mpr rfl
      have hbs := (readMoreCoefficients_eq_some_iff _ bs).mpr rfl
      have : coefficientTokens (b :: bs) = .openList :: coefficientWord b :: moreCoefficientTokens bs := rfl
      rw [this, coefficientWord, readCoefficients, hb, hbs]
      rfl

/-- The two forms of LDC's operands: a list alone, or `len=L` and a list. -/
theorem readLdc_eq_some_iff {d : LoadReg} {ts : List AsmToken} {line : AsmLine} :
    readLdc d ts = some line ↔
      (∃ cs, line = .ldc d cs ∧ ts = coefficientTokens cs) ∨
        ∃ w stated cs, line = .ldcRaw d stated cs ∧ readInt w = some stated ∧
          ts = .word ['l', 'e', 'n'] :: .equals :: .word w :: .comma :: coefficientTokens cs := by
  constructor
  · intro h
    unfold readLdc at h
    split at h
    · split at h
      · rename_i hlen
        obtain ⟨stated, hs, h⟩ := Option.bind_eq_some_iff.mp h
        obtain ⟨cs, hcs, rfl⟩ := Option.map_eq_some_iff.mp h
        rw [readCoefficients_eq_some_iff.mp hcs, hlen]
        exact .inr ⟨_, _, _, rfl, hs, rfl⟩
      · cases h
    · obtain ⟨cs, hcs, rfl⟩ := Option.map_eq_some_iff.mp h
      exact .inl ⟨cs, rfl, readCoefficients_eq_some_iff.mp hcs⟩
  · have list {cs : List Bool} := readCoefficients_eq_some_iff (cs := cs).mpr rfl
    rintro (⟨cs, rfl, rfl⟩ | ⟨w, stated, cs, rfl, hs, rfl⟩)
    · have : readLdc d (coefficientTokens cs) = (readCoefficients (coefficientTokens cs)).map (.ldc d) := by
        cases cs <;> rfl
      rw [this, list]
      rfl
    · simp [readLdc, hs, list]

/-! ## Reading a line -/

theorem written_of_readLine {mnemonic : String} {ts : List AsmToken} {line : AsmLine}
    (h : readLine mnemonic ts = some line) : mnemonic = line.instr.mnemonic ∧ line.Written ts := by
  unfold readLine at h
  split at h
  case h_1 | h_2 | h_3 | h_4 =>
    cases h
    exact ⟨rfl, rfl⟩
  case h_5 | h_6 | h_7 =>
    obtain ⟨r, hr, rfl⟩ := Option.map_eq_some_iff.mp h
    rw [readPolyReg_eq_some_iff.mp hr]
    exact ⟨rfl, rfl⟩
  case h_8 | h_9 | h_10 =>
    obtain ⟨m, hm, rfl⟩ := Option.map_eq_some_iff.mp h
    exact ⟨rfl, _, hm, rfl⟩
  case h_11 =>
    obtain ⟨d, hd, h⟩ := Option.bind_eq_some_iff.mp h
    obtain ⟨v, hv, rfl⟩ := Option.map_eq_some_iff.mp h
    rw [readLoadReg_eq_some_iff.mp hd]
    exact ⟨rfl, _, hv, rfl⟩
  case h_12 =>
    obtain ⟨r, hr, h⟩ := Option.bind_eq_some_iff.mp h
    obtain ⟨idx, hidx, rfl⟩ := Option.map_eq_some_iff.mp h
    rw [readPolyReg_eq_some_iff.mp hr]
    exact ⟨rfl, _, hidx, rfl⟩
  case h_13 =>
    obtain ⟨i, hi, h⟩ := Option.bind_eq_some_iff.mp h
    obtain ⟨j, hj, rfl⟩ := Option.map_eq_some_iff.mp h
    exact ⟨rfl, _, _, hi, hj, rfl⟩
  case h_14 =>
    obtain ⟨d, hd, h⟩ := Option.bind_eq_some_iff.mp h
    rw [readLoadReg_eq_some_iff.mp hd]
    obtain ⟨cs, rfl, rfl⟩ | ⟨w, stated, cs, rfl, hs, rfl⟩ := readLdc_eq_some_iff.mp h
    · exact ⟨rfl, rfl⟩
    · exact ⟨rfl, w, hs, rfl⟩
  case h_15 => cases h

theorem readLine_of_written {line : AsmLine} {ts : List AsmToken} (h : line.Written ts) :
    readLine line.instr.mnemonic ts = some line := by
  have polyReg (r : PolyReg) : readPolyReg (PolyReg.name r) = some r := readPolyReg_eq_some_iff.mpr rfl
  have loadReg (d : LoadReg) : readLoadReg (PolyReg.name d.toPolyReg) = some d := readLoadReg_eq_some_iff.mpr rfl
  cases line with
  | ldc d cs =>
    cases h
    simp [readLine, AsmLine.instr, Instr.mnemonic, loadReg, readLdc_eq_some_iff]
  | ldcRaw d stated cs =>
    obtain ⟨w, hw, rfl⟩ := h
    simp [readLine, AsmLine.instr, Instr.mnemonic, loadReg, readLdc_eq_some_iff, hw]
  | ldi d v =>
    obtain ⟨w, hw, rfl⟩ := h
    simp [readLine, AsmLine.instr, Instr.mnemonic, loadReg, hw]
  | stc r | sti r | deg r =>
    cases h
    simp [readLine, AsmLine.instr, Instr.mnemonic, polyReg]
  | coef r idx =>
    obtain ⟨w, hw, rfl⟩ := h
    simp [readLine, AsmLine.instr, Instr.mnemonic, polyReg, hw]
  | tblq i j =>
    obtain ⟨u, v, hu, hv, rfl⟩ := h
    simp [readLine, AsmLine.instr, Instr.mnemonic, hu, hv]
  | tbld m =>
    obtain ⟨w, hw, rfl⟩ := h
    simp [readLine, AsmLine.instr, Instr.mnemonic, hw]
  | mulb m | mulc m =>
    cases m with
    | none =>
      cases h
      rfl
    | some m =>
      obtain ⟨w, hw, rfl⟩ := h
      simp [readLine, AsmLine.instr, Instr.mnemonic, hw]
  | muln | tblx =>
    cases h
    rfl

theorem readLine_eq_some_iff {mnemonic : String} {ts : List AsmToken} {line : AsmLine} :
    readLine mnemonic ts = some line ↔ mnemonic = line.instr.mnemonic ∧ line.Written ts :=
  ⟨written_of_readLine, fun ⟨hm, h⟩ => hm ▸ readLine_of_written h⟩

/-! ## The pieces of a text -/

/-- The characters that end a word. -/
def separators : List Char := [';', ' ', '\t', ',', '[', ']', '=']

/-- A word ends at the blank after it. -/
theorem lexLine_word (w rest cur : List Char) (hne : cur ++ w ≠ []) (h : ∀ ch ∈ w, ch ∉ separators) :
    lexLine (w ++ ' ' :: rest) cur = .word (cur ++ w) :: lexLine rest [] := by
  induction w generalizing cur with
  | nil =>
    rw [List.append_nil] at hne ⊢
    simp [lexLine, hne]
  | cons ch w ih =>
    have hch : ch ∉ separators := h ch List.mem_cons_self
    simp only [separators, List.mem_cons, List.not_mem_nil, or_false, not_or] at hch
    have hstep : lexLine (ch :: (w ++ ' ' :: rest)) cur = lexLine (w ++ ' ' :: rest) (cur ++ [ch]) := by
      simp [lexLine, hch]
    rw [List.cons_append, hstep, ih (cur ++ [ch]) (by simp) fun x hx => h x (List.mem_cons_of_mem _ hx),
      List.append_cons cur ch w]

theorem lexLine_piece (tk : AsmToken) (rest : List Char)
    (h : ∀ w, tk = .word w → w ≠ [] ∧ ∀ ch ∈ w, ch ∉ separators) :
    lexLine (tk.text ++ ' ' :: rest) [] = tk :: lexLine rest [] := by
  cases tk with
  | word w => exact lexLine_word w rest [] (h w rfl).1 (h w rfl).2
  | _ => rfl

/-- Pieces written each with a blank after it, up to a comment, are the pieces read. -/
theorem lexLine_pieces (ts : List AsmToken) (comment : List Char)
    (h : ∀ w, .word w ∈ ts → w ≠ [] ∧ ∀ ch ∈ w, ch ∉ separators) :
    lexLine (ts.flatMap (fun tk => tk.text ++ [' ']) ++ ';' :: comment) [] = ts := by
  induction ts with
  | nil => rfl
  | cons tk ts ih =>
    have ih := ih fun w hw => h w (List.mem_cons_of_mem _ hw)
    have hpiece := lexLine_piece tk (ts.flatMap (fun tk => tk.text ++ [' ']) ++ ';' :: comment)
      fun w hw => h w (hw ▸ List.mem_cons_self)
    rw [ih] at hpiece
    simpa using hpiece

/-! ## Numerals (R17, R78) -/

theorem digitValue_digitChar {base d : Nat} (hb : base ≤ 16) (hd : d < base) :
    digitValue base d.digitChar = some d := by
  have value : ∀ base < 17, ∀ d < base, digitValue base (Nat.digitChar d) = some d := by decide
  exact value base (by omega) d hd

theorem digitsValue_append (base : Nat) (xs ys : List Char) (acc : Nat) :
    digitsValue base (xs ++ ys) acc = (digitsValue base xs acc).bind (digitsValue base ys) := by
  induction xs generalizing acc with
  | nil => rfl
  | cons x xs ih => simp [digitsValue, ih, Option.bind_assoc]

theorem digitsValue_toDigits {base : Nat} (h1 : 1 < base) (h16 : base ≤ 16) (n : Nat) :
    digitsValue base (Nat.toDigits base n) 0 = some n := by
  induction n using Nat.strongRecOn with
  | ind n ih =>
    by_cases hn : n < base
    · simp [Nat.toDigits_of_lt_base hn, digitsValue, digitValue_digitChar h16 hn]
    · have hdiv : n / base < n := Nat.div_lt_self (by omega) h1
      have hmod : n % base < base := Nat.mod_lt _ (by omega)
      rw [Nat.toDigits_of_base_le h1 (by omega), digitsValue_append, ih _ hdiv]
      simp [digitsValue, digitValue_digitChar h16 hmod, Nat.div_add_mod']

theorem readNat_hex (n : Nat) : readNat ('0' :: 'x' :: Nat.toDigits 16 n) = some n := by
  simp [readNat, Nat.toDigits_ne_nil, digitsValue_toDigits]

theorem readNat_binary (n : Nat) : readNat ('0' :: 'b' :: Nat.toDigits 2 n) = some n := by
  simp [readNat, Nat.toDigits_ne_nil, digitsValue_toDigits]

theorem not_mem_toDigits_ten {n : Nat} {ch : Char} (h : ch.isDigit = false) : ch ∉ Nat.toDigits 10 n := fun hmem => by
  rw [Nat.isDigit_of_mem_toDigits (by omega) (by omega) hmem] at h
  cases h

theorem readNat_decimal (n : Nat) : readNat (Nat.toDigits 10 n) = some n := by
  have hx : 'x' ∉ Nat.toDigits 10 n := not_mem_toDigits_ten rfl
  have hb : 'b' ∉ Nat.toDigits 10 n := not_mem_toDigits_ten rfl
  have hvalue := digitsValue_toDigits (base := 10) (by omega) (by omega) n
  have hne : Nat.toDigits 10 n ≠ [] := Nat.toDigits_ne_nil
  generalize Nat.toDigits 10 n = ds at hx hb hvalue hne
  unfold readNat
  split
  · simp at hx
  · simp at hb
  · simpa [hne] using hvalue

theorem readInt_decimal (n : Nat) : readInt (Nat.toDigits 10 n) = some (n : Int) := by
  have hminus : '-' ∉ Nat.toDigits 10 n := not_mem_toDigits_ten rfl
  have hvalue := readNat_decimal n
  generalize Nat.toDigits 10 n = ds at hminus hvalue
  unfold readInt
  split
  · simp at hminus
  · simp [hvalue]

theorem readInt_minus_decimal (n : Nat) : readInt ('-' :: Nat.toDigits 10 n) = some (-(n : Int)) := by
  rw [readInt, readNat_decimal]
  rfl

/-- Settles O60: the reader inverts each form of R78, the lexer stops a word at the blank after it, and a numeral is the
value of its digits. -/
theorem textLinesAreReadAsWritten : Obligations.TextLinesAreReadAsWritten :=
  ⟨fun _ _ _ => readLine_eq_some_iff, lexLine_pieces, fun n =>
    ⟨readNat_decimal n, readNat_hex n, readNat_binary n, readInt_decimal n, readInt_minus_decimal n⟩⟩

end Sys2Proof.Machine

/-! PROOFS of the statements on the representation commands (40_representation.md R91 to R99): LDC, LDI, STC, STI, DEG,
COEF, and the codec between a coefficient sequence and its integer. -/

namespace Sys2Proof.Machine

/-! ## A command that only responds, and one that loads a register -/

theorem finish_ended (s : State) (r : Response) : s.Ended (s.finish r) r := ⟨rfl, rfl, rfl, rfl⟩

theorem finish_sameBlock (s : State) (r : Response) : s.SameBlock (s.finish r) := ⟨finish_poly s r, rfl⟩

/-- A command that does nothing but give the response `r` ends with it and writes none of the six items. -/
theorem ends_in_same_block {i : Instr} {s : State} {r : Response} (h : exec i s = .next (s.finish r)) :
    ∃ t, exec i s = .next t ∧ s.Ended t r ∧ s.SameBlock t :=
  ⟨_, h, finish_ended s r, finish_sameBlock s r⟩

theorem load_ended (s : State) (d : LoadReg) (v : Nat) (r : Response) :
    s.Ended ((s.setOperand d v).finish r) r where
  cfg := setOperand_cfg s d v
  inputs := setOperand_inputs s d v
  payload := rfl
  responses := by rw [finish_responses, setOperand_responses]

theorem load_poly_self (s : State) (d : LoadReg) {v : Nat} (h : v < 2 ^ s.cfg.cap) (r : Response) :
    ((s.setOperand d v).finish r).poly d.toPolyReg = v :=
  (finish_poly _ r _).trans (setOperand_poly_self s d h)

theorem load_poly_other (s : State) (d : LoadReg) (v : Nat) (r : Response) (p : PolyReg) (h : p ≠ d.toPolyReg) :
    ((s.setOperand d v).finish r).poly p = s.poly p :=
  (finish_poly _ r _).trans (setOperand_poly_other s d v h)

/-- A load takes its payload away when it ends, so the payload it stood beside leaves no trace. -/
theorem load_with_payload (s : State) (p : Payload) (d : LoadReg) (v : Nat) (r : Response) :
    ({ s with payload := p }.setOperand d v).finish r = (s.setOperand d v).finish r := by
  cases d <;> rfl

/-! ## What each command does with the payload it calls for -/

section
variable {s : State}

theorem exec_ldc {length : BitVec 32} {coeffs : List Bool} (hp : s.payload = .coef length coeffs)
    (hlen : coeffs.length = length.toInt.toNat) (d : LoadReg) :
    exec (.ldc d) s =
      if length.toInt < 0 then raise .invalidDegree s
      else if (s.cfg.cap : Int) < length.toInt then raise .capacityExceeded s
      else respond .none (s.setOperand d (toInteger coeffs)) := by
  rw [exec, execLdc, withCoef_coef hp hlen]

theorem exec_ldi {v : BitVec s.cfg.cap} (hp : s.payload = .int s.cfg.cap v) (d : LoadReg) :
    exec (.ldi d) s = .next ((s.setOperand d v.toNat).finish ⟨.ok, .none⟩) :=
  withInt_int hp fun v => respond .none (s.setOperand d v)

theorem exec_stc (hp : s.payload = .none) (r : PolyReg) :
    exec (.stc r) s =
      .next (s.finish ⟨.ok, .coef (BitVec.ofNat 32 (len (s.poly r))) (toCoefficients (s.poly r))⟩) :=
  withNoPayload_none hp _

theorem exec_sti (hp : s.payload = .none) (r : PolyReg) :
    exec (.sti r) s =
      .next (s.finish ⟨.ok, .int (regWidth s.cfg r) (BitVec.ofNat (regWidth s.cfg r) (s.poly r))⟩) :=
  withNoPayload_none hp _

theorem exec_deg (hp : s.payload = .none) (r : PolyReg) :
    exec (.deg r) s = .next (s.finish ⟨.ok, .deg (BitVec.ofInt 32 (deg (s.poly r)))⟩) :=
  withNoPayload_none hp _

theorem exec_coef (hp : s.payload = .none) (r : PolyReg) (idx : Int) :
    exec (.coef r idx) s =
      if idx < 0 then raise .indexRejected s else respond (.bit ((s.poly r).testBit idx.toNat)) s :=
  withNoPayload_none hp _

end

/-! ## The codec (R91 to R93) -/

/-- R93 (a): both sides have the same bits. -/
theorem toInteger_toCoefficients (x : Nat) : toInteger (toCoefficients x) = x :=
  Nat.eq_of_testBit_eq fun k => by rw [testBit_toInteger, toCoefficients_getD]

/-- A 0 at the top of a sequence adds nothing to its integer. -/
theorem toInteger_append_false (c : List Bool) : toInteger (c ++ [false]) = toInteger c := by
  induction c with
  | nil => rfl
  | cons b c ih => rw [List.cons_append, toInteger, toInteger, ih]

/-- The integer of a sequence with a 1 at its top is as long as the sequence. -/
theorem len_toInteger_append_true (c : List Bool) : len (toInteger (c ++ [true])) = c.length + 1 := by
  have htop : (toInteger (c ++ [true])).testBit c.length = true := by simp [testBit_toInteger]
  have habove : ∀ k, c.length < k → (toInteger (c ++ [true])).testBit k = false := fun k hk => by
    rw [testBit_toInteger, List.getD_eq_default _ _ (by simpa using hk)]
  have hdeg := deg_eq_of htop habove
  rw [deg_eq_len_sub_one] at hdeg
  omega

theorem len_toInteger_of_canonical {c : List Bool} (h : c = [] ∨ c.getLast? = some true) :
    len (toInteger c) = c.length := by
  obtain rfl | h := h
  · rfl
  · obtain ⟨cs, rfl⟩ := List.getLast?_eq_some_iff.mp h
    rw [len_toInteger_append_true, List.length_append, List.length_singleton]

/-- R93 (b): the two sequences have one length and the same coefficients. -/
theorem toCoefficients_toInteger {c : List Bool} (h : c = [] ∨ c.getLast? = some true) :
    toCoefficients (toInteger c) = c := by
  refine List.ext_getElem ?_ fun k h1 h2 => ?_
  · rw [toCoefficients_length, len_toInteger_of_canonical h]
  · rw [← List.getD_eq_getElem _ false h1, toCoefficients_getD, testBit_toInteger, List.getD_eq_getElem _ false h2]

theorem toCoefficients_zero : toCoefficients 0 = [] := rfl

theorem toCoefficients_ne_nil {x : Nat} (h : x ≠ 0) : toCoefficients x ≠ [] := fun hnil =>
  h (by rw [← toInteger_toCoefficients x, hnil, toInteger])

/-! ## The degree as a 32-bit signed integer (R98) -/

/-- Every degree a register can have fits the response, since R7 keeps RCAP below 2^31. -/
theorem deg_poly_toInt (s : State) (r : PolyReg) : (BitVec.ofInt 32 (deg (s.poly r))).toInt = deg (s.poly r) := by
  obtain ⟨h1, h2⟩ := len_poly_lt s r
  rw [BitVec.toInt_ofInt, deg_eq_len_sub_one]
  exact Int.bmod_eq_of_le (by omega) (by omega)

theorem deg_toNat_cast {x : Nat} (h : x ≠ 0) : ((deg x).toNat : Int) = deg x := by
  have := deg_toNat_of_ne_zero h
  rw [deg_eq_len_sub_one]
  omega

/-- The degree is the position of the highest 1 (R12). -/
theorem testBit_above_deg {x k : Nat} (h : x ≠ 0) (hk : (deg x).toNat < k) : x.testBit k = false :=
  testBit_of_len_le (deg_toNat_of_ne_zero h ▸ hk)

/-! ## The statements -/

/-- Settles O30: R93 (a), (b), and the top 0 that the integer does not see. -/
theorem codecFunctionsAreInverse : Obligations.CodecFunctionsAreInverse :=
  ⟨toInteger_toCoefficients, fun _ => toCoefficients_toInteger, fun c => by rw [toInteger_append_false]⟩

/-- Settles O24: one clause of R94 for each branch of the test on LEN; a sequence of at most CAP coefficients fits its
register. -/
theorem ldcLoadsOrRejectsByItsLength : Obligations.LdcLoadsOrRejectsByItsLength := by
  intro s d length coeffs hp hlen
  have hexec := exec_ldc hp (by omega) d
  refine ⟨fun hneg => ends_in_same_block ?_, fun hbig => ends_in_same_block ?_, fun h0 hcap => ?_⟩
  · rw [hexec, if_pos hneg, raise]
  · rw [hexec, if_neg (by omega), if_pos hbig, raise]
  · have hfits : toInteger coeffs < 2 ^ s.cfg.cap :=
      (toInteger_lt coeffs).trans_le (Nat.pow_le_pow_right (by omega) (by omega))
    refine ⟨_, ?_, load_ended s d (toInteger coeffs) ⟨.ok, .none⟩, fun k => ?_,
      load_poly_other s d _ _, setOperand_table s d _⟩
    · rw [hexec, if_neg (by omega), if_neg (by omega), respond]
    · rw [load_poly_self s d hfits, testBit_toInteger]

/-- Settles O25: the value fits its register, and an LDC that answers OK has loaded the integer of its sequence. -/
theorem ldiLoadsTheValueAsItIs : Obligations.LdiLoadsTheValueAsItIs := by
  intro s d v hp
  refine ⟨_, exec_ldi hp d, load_ended s d _ _, load_poly_self s d v.isLt _, load_poly_other s d _ _,
    setOperand_table s d _, fun length coeffs u hv hldc hok => ?_⟩
  obtain ⟨_, _, hpay, _, ⟨_, rfl⟩ | ⟨_, rfl⟩ | ⟨_, _, rfl⟩⟩ := execLdc_next hldc
  · simp at hok
  · simp at hok
  · cases hpay
    rw [hv, load_with_payload]

/-- Settles O26: what STC gives has the form of R70, and its coefficients are the bits of the register. -/
theorem stcRespondsTheCanonicalSequence : Obligations.StcRespondsTheCanonicalSequence := by
  intro s r hp
  obtain ⟨_, hlen, hlast⟩ := coefResponse_wf s r
  exact ⟨_, _, _, exec_stc hp r, finish_ended s _, finish_sameBlock s _, hlen.symm, toCoefficients_getD _,
    fun h0 => by rw [h0, toCoefficients_zero], fun h => hlast (toCoefficients_ne_nil h)⟩

/-- Settles O27: a register of the width its response states is given as it is. -/
theorem stiRespondsTheWholeRegister : Obligations.StiRespondsTheWholeRegister := by
  intro s hp
  have whole {w : Nat} (v : BitVec w) : BitVec.ofNat w v.toNat = v := by rw [BitVec.ofNat_toNat, BitVec.setWidth_eq]
  refine ⟨ends_in_same_block ?_, ends_in_same_block ?_, ends_in_same_block ?_⟩
  · rw [exec_sti hp, State.poly, regWidth, whole]
  · rw [exec_sti hp, State.poly, regWidth, whole]
  · rw [exec_sti hp, State.poly, regWidth, whole]
    rfl

/-- Settles O28: the degree fits 32 signed bits, has a 1 at it and none above it. -/
theorem degRespondsTheHighestSetPosition : Obligations.DegRespondsTheHighestSetPosition := by
  intro s r hp
  refine ⟨_, _, exec_deg hp r, finish_ended s _, finish_sameBlock s _, fun h0 => ?_, fun h => ?_⟩
  · rw [h0]
    rfl
  · exact ⟨(deg (s.poly r)).toNat, by rw [deg_poly_toInt, deg_toNat_cast h], testBit_deg h,
      fun k => testBit_above_deg h⟩

/-- Settles O29: the sign of the index alone decides the status, and no bit of a register lies at or above its width. -/
theorem coefRespondsOneCoefficient : Obligations.CoefRespondsOneCoefficient := by
  intro s r idx hp
  have hexec := exec_coef hp r idx
  refine ⟨fun hneg => ends_in_same_block ?_, ?_⟩
  · rw [hexec, if_pos hneg, raise]
  · rintro k rfl
    refine ⟨_, ?_, finish_ended s _, finish_sameBlock s _, fun hk => ?_⟩
    · rw [hexec, if_neg (by omega), respond, Int.toNat_natCast]
    · exact Nat.testBit_lt_two_pow ((poly_lt s r).trans_le (Nat.pow_le_pow_right (by omega) hk))

end Sys2Proof.Machine

/-! PROOFS of the statements on the schoolbook multiplier (41_schoolbook.md R110 to R113): the product MULN leaves, and
the relation its loop keeps. -/

namespace Sys2Proof.Machine

/-! ## The reference product, one bit of b at a time -/

theorem clmul_xor_right (a b c : Nat) : clmul a (b ^^^ c) = clmul a b ^^^ clmul a c := by
  apply Nat.eq_of_testBit_eq
  intro k
  simp only [Nat.testBit_xor, testBit_clmul, clmulBit_eq, Bool.and_xor_distrib_left, xorSum_xor]

theorem clmul_two_pow (a n : Nat) : clmul a (2 ^ n) = a * 2 ^ n := by
  apply Nat.eq_of_testBit_eq
  intro k
  rw [testBit_clmul, clmulBit_eq, Nat.testBit_mul_two_pow]
  by_cases hk : n ≤ k
  · rw [xorSum_single (p := k - n) (by omega) fun i hi hne => ?_]
    · simp [hk, Nat.sub_sub_self hk]
    · have : n ≠ k - i := by omega
      simp [this]
  · rw [xorSum_eq_false fun i hi => ?_]
    · simp [hk]
    · have : n ≠ k - i := by omega
      simp [this]

theorem mod_two_pow_succ_eq_xor (b n : Nat) :
    b % 2 ^ (n + 1) = b % 2 ^ n ^^^ if b.testBit n then 2 ^ n else 0 := by
  apply Nat.eq_of_testBit_eq
  intro k
  rcases Nat.lt_trichotomy k n with h | rfl | h
  · cases b.testBit n <;> simp [h, Nat.lt_succ_of_lt h, h.ne']
  · cases hb : b.testBit k <;> simp [hb]
  · have h1 : ¬ k < n + 1 := by omega
    cases b.testBit n <;> simp [h1, h.not_gt, h.ne]

/-- One iteration's term of R112: bit n of b adds a << n. -/
theorem clmul_mod_two_pow_succ (a b n : Nat) :
    clmul a (b % 2 ^ (n + 1)) = clmul a (b % 2 ^ n) ^^^ if b.testBit n then a * 2 ^ n else 0 := by
  rw [mod_two_pow_succ_eq_xor, clmul_xor_right, apply_ite (clmul a), clmul_two_pow, clmul_zero_right]

theorem len_le_iff {x n : Nat} : len x ≤ n ↔ x < 2 ^ n :=
  ⟨fun h => (lt_two_pow_len x).trans_le (Nat.pow_le_pow_right (by omega) h), len_le_of_lt_two_pow⟩

/-! ## The working registers after n iterations (R112) -/

section
variable {r c : Nat} (x : ShiftRegs r c)

theorem iterate_shiftStep_sa (n : Nat) : (shiftStep^[n] x).sa = x.sa <<< n := by
  induction n with
  | zero => simp
  | succ n ih => rw [Function.iterate_succ_apply', shiftStep, ih, BitVec.shiftLeft_add]

theorem iterate_shiftStep_sb (n : Nat) : (shiftStep^[n] x).sb = x.sb >>> n := by
  induction n with
  | zero => simp
  | succ n ih => rw [Function.iterate_succ_apply', shiftStep, ih, BitVec.shiftRight_add]

/-- The loop stops after the first number of iterations that leaves `sb` at 0. -/
theorem shiftLoop_eq_iterate {fuel n : Nat} (hn : n ≤ fuel) (hgo : ∀ j < n, (shiftStep^[j] x).sb ≠ 0)
    (hstop : (shiftStep^[n] x).sb = 0) : shiftLoop fuel x = shiftStep^[n] x := by
  induction n generalizing fuel x with
  | zero =>
    cases fuel with
    | zero => rfl
    | succ fuel => exact if_pos hstop
  | succ n ih =>
    obtain ⟨fuel, rfl⟩ := Nat.exists_eq_add_of_le' hn
    have hne : x.sb ≠ 0 := hgo 0 (by omega)
    rw [← Nat.add_assoc, shiftLoop, if_neg hne]
    exact ih (shiftStep x) (by omega) (fun j hj => hgo (j + 1) (by omega)) hstop

end

section
variable (s : State)

theorem shiftStart_sa_toNat : s.shiftStart.sa.toNat = s.poly .pa := by
  have : s.cfg.cap ≤ s.cfg.rcap := by
    have := s.cfg.one_le_cap
    rw [Config.rcap]
    omega
  exact BitVec.toNat_setWidth_of_le this

theorem iterate_shiftStart_sa_toNat (n : Nat) :
    (shiftStep^[n] s.shiftStart).sa.toNat = s.poly .pa * 2 ^ n % 2 ^ s.cfg.rcap := by
  rw [iterate_shiftStep_sa, BitVec.toNat_shiftLeft, shiftStart_sa_toNat, Nat.shiftLeft_eq]

theorem iterate_shiftStart_sb_toNat (n : Nat) : (shiftStep^[n] s.shiftStart).sb.toNat = s.poly .pb / 2 ^ n := by
  rw [iterate_shiftStep_sb, BitVec.toNat_ushiftRight, Nat.shiftRight_eq_div_pow]
  rfl

theorem len_pb_le_cap : len (s.poly .pb) ≤ s.cfg.cap := len_le_iff.mpr (poly_pb_lt s)

/-- R113: no shift of a that a bit of b can still select has lost a 1. -/
theorem pa_mul_two_pow_lt {n : Nat} (hn : n < len (s.poly .pb)) : s.poly .pa * 2 ^ n < 2 ^ s.cfg.rcap :=
  have hexp : s.cfg.cap + n ≤ s.cfg.rcap := by
    have := len_pb_le_cap s
    rw [Config.rcap]
    omega
  calc s.poly .pa * 2 ^ n < 2 ^ s.cfg.cap * 2 ^ n := Nat.mul_lt_mul_of_pos_right (poly_pa_lt s) (by positivity)
    _ = 2 ^ (s.cfg.cap + n) := (Nat.pow_add _ _ _).symm
    _ ≤ 2 ^ s.cfg.rcap := Nat.pow_le_pow_right (by omega) hexp

theorem iterate_shiftStart_acc_toNat {n : Nat} (hn : n ≤ len (s.poly .pb)) :
    (shiftStep^[n] s.shiftStart).acc.toNat = clmul (s.poly .pa) (s.poly .pb % 2 ^ n) := by
  induction n with
  | zero => simp [State.shiftStart, Nat.mod_one, clmul_zero_right]
  | succ n ih =>
    have hsa : (shiftStep^[n] s.shiftStart).sa.toNat = s.poly .pa * 2 ^ n := by
      rw [iterate_shiftStart_sa_toNat, Nat.mod_eq_of_lt (pa_mul_two_pow_lt s hn)]
    have hbit : (shiftStep^[n] s.shiftStart).sb.getLsbD 0 = (s.poly .pb).testBit n := by
      rw [iterate_shiftStep_sb, BitVec.getLsbD_ushiftRight]
      rfl
    rw [Function.iterate_succ_apply', shiftStep, hbit, clmul_mod_two_pow_succ, ← ih (by omega), ← hsa]
    cases (s.poly .pb).testBit n <;> simp

theorem iterate_shiftStart_sb_eq_zero_iff (n : Nat) :
    (shiftStep^[n] s.shiftStart).sb = 0 ↔ len (s.poly .pb) ≤ n := by
  rw [len_le_iff, ← BitVec.toNat_inj, iterate_shiftStart_sb_toNat]
  exact Nat.div_eq_zero_iff_lt (by positivity)

theorem shiftLoop_shiftStart_eq_iterate :
    shiftLoop s.cfg.cap s.shiftStart = shiftStep^[len (s.poly .pb)] s.shiftStart :=
  shiftLoop_eq_iterate _ (len_pb_le_cap s)
    (fun j hj => mt (iterate_shiftStart_sb_eq_zero_iff s j).mp (by omega))
    ((iterate_shiftStart_sb_eq_zero_iff s _).mpr le_rfl)

/-! ## What MULN does -/

/-- MULN is one assignment of the reference product: the short-circuit of R111 gives the same PR as the loop. -/
theorem exec_muln (hp : s.payload = .none) :
    exec .muln s = .next ((s.setProduct (clmul (s.poly .pa) (s.poly .pb))).finish ⟨.ok, .none⟩) := by
  rw [exec, execMuln, withNoPayload_none hp, shiftLoop_start]
  split
  · rename_i hzero
    rw [← clmul_of_zeroOperand hzero, respond]
  · rw [respond]

theorem product_ended (v : Nat) (r : Response) : s.Ended ((s.setProduct v).finish r) r := ⟨rfl, rfl, rfl, rfl⟩

end

/-! ## The statements -/

/-- Settles O31: the loop computes the reference product, which fits PR. -/
theorem mulnLeavesTheProduct : Obligations.MulnLeavesTheProduct := by
  intro s hp
  refine ⟨_, exec_muln s hp, product_ended s _ _, fun k => ?_, rfl, rfl, rfl⟩
  rw [poly_pr_of_product rfl, testBit_clmul]

/-- Settles O32: the relation holds at the start and each iteration keeps it; `sb` is 0 as soon as all len(b) bits of b
have been shifted out, and not before. -/
theorem schoolbookLoopKeepsItsRelation : Obligations.SchoolbookLoopKeepsItsRelation := by
  intro s n hn
  refine ⟨iterate_shiftStart_sa_toNat s n, iterate_shiftStart_sb_toNat s n, iterate_shiftStart_acc_toNat s hn, ?_,
    shiftLoop_shiftStart_eq_iterate s⟩
  rw [iterate_shiftStart_sb_eq_zero_iff]
  omega

end Sys2Proof.Machine

/-! PROOFS of the statements on the block table (42_block_table.md R121 to R134): the table commands TBLD, TBLQ, TBLX, the
table they build and read, the block partition, and the multiplier MULB. -/

namespace Sys2Proof.Machine

/-! ## The block partition (R126) -/

/-- The ways R126 cuts the positions s..hi: one last block that reaches `hi`, or a full block and a cut of what is left
after it. -/
inductive CutInto (m hi : Nat) : Nat → List (Nat × Nat) → Prop
  | last {s : Nat} (hs : s ≤ hi) (hm : hi < s + m) : CutInto m hi s [(s, hi - s + 1)]
  | full {s : Nat} {rest : List (Nat × Nat)} (hm : s + m ≤ hi) (h : CutInto m hi (s + m) rest) :
      CutInto m hi s ((s, m) :: rest)

theorem blocksFrom_of_lt {m hi s : Nat} (h : hi < s) (fuel : Nat) : blocksFrom m hi fuel s = [] := by
  cases fuel with
  | zero => rfl
  | succ fuel => exact if_neg (by omega)

theorem cutInto_blocksFrom {m hi : Nat} (hm : 1 ≤ m) {fuel s : Nat} (hs : s ≤ hi) (hfuel : hi + 1 ≤ s + fuel) :
    CutInto m hi s (blocksFrom m hi fuel s) := by
  induction fuel generalizing s with
  | zero => omega
  | succ fuel ih =>
    rw [blocksFrom, if_pos hs]
    by_cases hlast : hi < s + m
    · rw [Nat.min_eq_right (by omega), blocksFrom_of_lt (by omega)]
      exact .last hs hlast
    · rw [Nat.min_eq_left (by omega)]
      exact .full (by omega) (ih (by omega) (by omega))

theorem cutInto_blocks {m lo hi : Nat} (hm : 1 ≤ m) (h : lo ≤ hi) : CutInto m hi lo (blocks m lo hi) :=
  cutInto_blocksFrom hm h (by omega)

section
variable {m hi s : Nat} {l : List (Nat × Nat)}

theorem CutInto.positions (h : CutInto m hi s l) :
    (l.flatMap fun blk => List.range' blk.1 blk.2) = List.range' s (hi - s + 1) := by
  induction h with
  | last => simp
  | @full s _ hm _ ih =>
    rw [List.flatMap_cons, ih, List.range'_append_1]
    congr 1
    omega

/-- Every block lies inside the positions that are cut. -/
theorem CutInto.block_bounds (h : CutInto m hi s l) {blk : Nat × Nat} (hblk : blk ∈ l) :
    s ≤ blk.1 ∧ blk.1 + blk.2 ≤ hi + 1 := by
  induction h with
  | last =>
    cases List.mem_singleton.mp hblk
    exact ⟨le_rfl, by omega⟩
  | full _ _ ih =>
    obtain rfl | hrest := List.mem_cons.mp hblk
    · exact ⟨le_rfl, by omega⟩
    · have := ih hrest
      omega

theorem CutInto.length_bounds (hm : 1 ≤ m) (h : CutInto m hi s l) {blk : Nat × Nat} (hblk : blk ∈ l) :
    1 ≤ blk.2 ∧ blk.2 ≤ m := by
  induction h with
  | last =>
    cases List.mem_singleton.mp hblk
    omega
  | full _ _ ih =>
    obtain rfl | hrest := List.mem_cons.mp hblk
    · exact ⟨hm, le_rfl⟩
    · exact ih hrest

theorem CutInto.full_before_last (h : CutInto m hi s l) : ∀ blk ∈ l.dropLast, blk.2 = m := by
  induction h with
  | last => simp
  | full _ hrest ih =>
    cases hrest with
    | last => simp
    | full => simpa using ih

theorem CutInto.block_count (hm : 1 ≤ m) (h : CutInto m hi s l) : l.length = (hi - s + 1 + (m - 1)) / m := by
  induction h with
  | last =>
    rw [List.length_singleton, Nat.div_eq_of_lt_le (k := 1) (by omega) (by omega)]
  | @full s _ _ _ ih =>
    have hrange : hi - s + 1 + (m - 1) = hi - (s + m) + 1 + (m - 1) + m := by omega
    rw [List.length_cons, ih, hrange, Nat.add_div_right _ hm]

end

/-! ## The number of ones in a table (R122) -/

theorem xor_lt_two_pow_iff {m x j : Nat} (hx : x < 2 ^ m) : j ^^^ x < 2 ^ m ↔ j < 2 ^ m :=
  ⟨fun h => by simpa using Nat.xor_lt_two_pow h hx, fun h => Nat.xor_lt_two_pow h hx⟩

/-- Flipping the bits of `x` permutes the m-bit values. -/
theorem map_xor_range_perm {m x : Nat} (hx : x < 2 ^ m) :
    ((List.range (2 ^ m)).map fun j => j ^^^ x).Perm (List.range (2 ^ m)) := by
  refine (List.perm_ext_iff_of_nodup (List.nodup_range.map Nat.xor_left_injective) List.nodup_range).mpr fun b => ?_
  simp only [List.mem_map, List.mem_range]
  refine ⟨?_, fun hb => ⟨b ^^^ x, (xor_lt_two_pow_iff hx).mpr hb, by simp⟩⟩
  rintro ⟨j, hj, rfl⟩
  exact (xor_lt_two_pow_iff hx).mpr hj

theorem parity_two_pow (p : Nat) : parity (2 ^ p) = true := by
  rw [parity_eq_xorSum (Nat.pow_lt_pow_right (by omega) (Nat.lt_succ_self p)), xorSum_single (p := p) (by omega)]
  · exact Nat.testBit_two_pow_self
  · exact fun k _ hk => Nat.testBit_two_pow_of_ne hk.symm

/-- Flipping a position where `i` is 1 flips the dot product with `i`. -/
theorem dot_xor_two_pow {i p : Nat} (hp : i.testBit p = true) (j : Nat) : dot i (j ^^^ 2 ^ p) = !dot i j := by
  have hand : i &&& 2 ^ p = 2 ^ p := by rw [Nat.and_two_pow, hp, Bool.toNat_true, Nat.one_mul]
  rw [dot, Nat.and_xor_distrib_left, hand, parity_xor, parity_two_pow, Bool.xor_true, dot]

/-- A row other than row 0 has as many ones as zeros: a flipped bit pairs them up. -/
theorem two_mul_countP_dot {m i : Nat} (hi : i < 2 ^ m) (h0 : i ≠ 0) :
    2 * (List.range (2 ^ m)).countP (dot i) = 2 ^ m := by
  have hp : i.testBit (deg i).toNat = true := testBit_deg h0
  have hflip : (List.range (2 ^ m)).countP (dot i) = (List.range (2 ^ m)).countP fun j => !dot i j := by
    have hlt : 2 ^ (deg i).toNat < 2 ^ m := (Nat.ge_two_pow_of_testBit hp).trans_lt hi
    rw [← (map_xor_range_perm hlt).countP_eq, List.countP_map]
    exact List.countP_congr fun j _ => by simp [dot_xor_two_pow hp]
  have hall := List.length_eq_countP_add_countP (dot i) (l := List.range (2 ^ m))
  rw [List.length_range] at hall
  simp only [Bool.not_eq_true, Bool.decide_eq_false] at hall
  omega

theorem countP_tableRow_zero (m : Nat) : (tableRow m 0).countP (fun c => c.2) = 0 := by
  simp [tableRow, dot, parity_zero]

theorem countP_tableRow {m i : Nat} (hi : i < 2 ^ m) (h0 : i ≠ 0) :
    (tableRow m i).countP (fun c => c.2) = 2 ^ (m - 1) := by
  have hm : 0 < m := by
    by_contra hm
    simp [Nat.eq_zero_of_not_pos hm, h0] at hi
  have hrow : 2 * (tableRow m i).countP (fun c => c.2) = 2 ^ m := by
    rw [tableRow, List.countP_map]
    exact two_mul_countP_dot hi h0
  have hhalf := Nat.two_pow_pred_mul_two hm
  omega

/-! ## Writing the entries of a table (R49, R122) -/

theorem Memory.mem_write {mem : Memory} (h : Memory.wf mem) (idx : Nat) (v : Bool) (c : Nat × Bool) :
    c ∈ Memory.write mem idx v ↔ c = (idx, v) ∨ (c.1 ≠ idx ∧ c ∈ mem) := by
  obtain ⟨k, u⟩ := c
  rw [← Memory.read_eq_some_iff _ (Memory.write_wf mem idx v h), Memory.read_write mem idx v k h,
    ← Memory.read_eq_some_iff mem h]
  by_cases hk : k = idx
  · simp [hk, eq_comm]
  · simp [hk]

theorem Memory.eq_of_mem {mem : Memory} (h : Memory.wf mem) {c d : Nat × Bool} (hc : c ∈ mem) (hd : d ∈ mem)
    (hkey : c.1 = d.1) : c = d := by
  have hc' := (Memory.read_eq_some_iff mem h c.1 c.2).mpr hc
  have hd' := (Memory.read_eq_some_iff mem h d.1 d.2).mpr hd
  rw [hkey, hd'] at hc'
  exact Prod.ext hkey (Option.some.inj hc').symm

theorem Memory.ext_of_mem {m1 m2 : Memory} (h1 : Memory.wf m1) (h2 : Memory.wf m2) (h : ∀ c, c ∈ m1 ↔ c ∈ m2) :
    m1 = m2 :=
  Memory.ext_of_read h1 h2 fun idx => Option.ext fun v => by
    rw [Memory.read_eq_some_iff m1 h1, Memory.read_eq_some_iff m2 h2, h]

/-- The memory after the entries of `l` are written in turn. -/
def Memory.writeAll (mem : Memory) (l : List (Nat × Bool)) : Memory :=
  l.foldl (fun mem c => Memory.write mem c.1 c.2) mem

/-- Writing entries of a canonical memory `M`, in whatever order and whatever of `M` is there already, leaves `M` once
none of its entries is missing. -/
theorem Memory.writeAll_eq {M : Memory} (hM : Memory.wf M) (l : List (Nat × Bool)) {mem : Memory} (h : Memory.wf mem)
    (hmem : ∀ c, c ∈ M ↔ c ∈ mem ∨ c ∈ l) : mem.writeAll l = M := by
  induction l generalizing mem with
  | nil => exact Memory.ext_of_mem h hM fun c => by simp [hmem, Memory.writeAll]
  | cons d l ih =>
    refine ih (Memory.write_wf mem d.1 d.2 h) fun c => ?_
    have hsame : c ∈ mem → c.1 = d.1 → c = d := fun hc =>
      Memory.eq_of_mem hM ((hmem c).mpr (.inl hc)) ((hmem d).mpr (.inr (List.mem_cons_self ..)))
    rw [hmem, Memory.mem_write h, List.mem_cons]
    tauto

/-! ## What the table commands do -/

theorem badBlockSize_eq_true_iff {c : Config} {m : Int} :
    badBlockSize c m = true ↔ m ≤ 0 ∨ (c.mMax : Int) < m := by
  simp [badBlockSize]

section
variable {s : State}

theorem tblValid_eq_false_iff : s.tblValid = false ↔ s.table = none := by simp [State.tblValid]

theorem exec_tbld (hp : s.payload = .none) (m : Int) :
    exec (.tbld m) s =
      if badBlockSize s.cfg m then raise .configurationError s else respond .none (s.buildTable m.toNat) :=
  withNoPayload_none hp _

theorem exec_tblx (hp : s.payload = .none) : exec .tblx s = .next (s.dropTable.finish ⟨.ok, .none⟩) :=
  withNoPayload_none hp _

theorem exec_tblq_of_no_table {word : BitVec 32} (hp : s.payload = .pair word) (ht : s.table = none) :
    exec .tblq s = .next (s.finish ⟨.tableNotBuilt, .none⟩) := by
  rw [exec, execTblq, withPair_pair hp, ht, raise]

theorem exec_tblq_of_index_too_big {word : BitVec 32} (hp : s.payload = .pair word) {tb : Table}
    (ht : s.table = some tb)
    (hbig : 2 ^ tb.m.toNat ≤ word.toNat / 65536 ∨ 2 ^ tb.m.toNat ≤ word.toNat % 65536) :
    exec .tblq s = .next (s.finish ⟨.indexRejected, .none⟩) := by
  simp only [exec, execTblq, withPair_pair hp, ht, if_pos hbig, raise]

theorem exec_tblq_of_sound {word : BitVec 32} (hp : s.payload = .pair word) {tb : Table} (ht : s.table = some tb)
    (hs : tb.Sound s.cfg) (hi : word.toNat / 65536 < 2 ^ tb.m.toNat) (hj : word.toNat % 65536 < 2 ^ tb.m.toNat) :
    exec .tblq s = .next (s.finish ⟨.ok, .bit (parity (word.toNat / 65536 &&& word.toNat % 65536))⟩) := by
  simp only [exec, execTblq, withPair_pair hp, ht, Table.read_of_holds hs.holds hi hj, respond, dot]
  rw [if_neg (by omega)]

/-! ## What MULB does -/

theorem exec_mulb_of_bad (hp : s.payload = .none) {m : Int} (hm : badBlockSize s.cfg m = true) :
    exec (.mulb m) s = .next (s.finish ⟨.configurationError, .none⟩) := by
  rw [exec, execMulb, withNoPayload_none hp, if_pos hm, raise]

theorem exec_mulb_of_zeroOperand (hp : s.payload = .none) {m : Int} (hm : badBlockSize s.cfg m = false)
    (hz : s.zeroOperand = true) : exec (.mulb m) s = .next ((s.setProduct 0).finish ⟨.ok, .none⟩) := by
  rw [exec, execMulb, withNoPayload_none hp, if_neg (by simp [hm]), if_pos hz, respond]

/-- With a sound table, or none, the lookups of MULB all answer, and it is one assignment of the reference product. -/
theorem exec_mulb_of_nonzero (hp : s.payload = .none) (hs : ∀ tb, s.table = some tb → tb.Sound s.cfg) {m : Int}
    (hm : badBlockSize s.cfg m = false) (hz : s.zeroOperand = false) :
    exec (.mulb m) s =
      .next (({ s with table := some (s.ensuredTable m.toNat) }.setProduct
        (clmul (s.poly .pa) (s.poly .pb))).finish ⟨.ok, .none⟩) := by
  obtain ⟨h1, h2⟩ := toNat_bounds_of_goodBlockSize hm
  obtain ⟨ha, hb⟩ := ne_zero_of_zeroOperand_eq_false hz
  obtain ⟨hsound, hm'⟩ := ensuredTable_sound hs h1 h2
  have hholds := hsound.holds
  rw [hm'] at hholds
  simp only [exec, execMulb, withNoPayload_none hp, hm, hz, blockProduct_eq hholds h1 ha hb, respond,
    Bool.false_eq_true, if_false]

theorem ensuredTable_of_cached {old : Table} (h : s.table = some old) : s.ensuredTable old.m.toNat = old := by
  simp [State.ensuredTable, h]

/-- MULB and TBLD with a legal block size answer OK or do not answer (R121). -/
theorem responds_ok_of_goodBlockSize {m : Int} (hm : badBlockSize s.cfg m = false) {t : State}
    (h : exec (.mulb m) s = .next t ∨ exec (.tbld m) s = .next t) : t.responses = s.responses ++ [⟨.ok, .none⟩] := by
  obtain h | h := h
  · obtain ⟨_, ⟨hbad, _⟩ | ⟨_, _, rfl⟩ | ⟨_, _, _, _, rfl⟩⟩ := execMulb_next h
    · simp [hm] at hbad
    · rfl
    · rfl
  · obtain ⟨_, ⟨hbad, _⟩ | ⟨_, rfl⟩⟩ := execTbld_next h
    · simp [hm] at hbad
    · rfl

end

/-! ## The statements -/

/-- Settles O38: each clause is a property of every cut of the range. -/
theorem blocksPartitionTheRange : Obligations.BlocksPartitionTheRange := by
  intro m lo hi hm hle
  have hcut := cutInto_blocks hm hle
  exact ⟨hcut.positions, fun _ => hcut.length_bounds hm, hcut.full_before_last, hcut.block_count hm⟩

/-- Settles O39: the range start_i(k)..end_i(k) is where both coefficient indices exist, and no block leaves it. -/
theorem blockIndicesPairTheirPositions : Obligations.BlockIndicesPairTheirPositions := by
  intro a b m k ha hb hm hk blk hblk
  have hla := deg_toNat_of_ne_zero ha
  have hlb := deg_toNat_of_ne_zero hb
  have hrange : startI (len b - 1) k ≤ endI (len a - 1) k := by
    simp only [startI, endI]
    omega
  obtain ⟨hlo, hhi⟩ := (cutInto_blocks hm hrange).block_bounds hblk
  refine ⟨fun _ => ⟨natOfBits_lt _ _, natOfBits_lt _ _, fun p hp => ⟨?_, ?_⟩⟩, fun p hp => ?_⟩
  · simp [blockIndexA, testBit_natOfBits, hp]
  · simp [blockIndexB, testBit_natOfBits, hp, Nat.sub_sub]
  · simp only [startI, endI] at hlo hhi
    omega

/-- Settles O44: the entries written are those of the built table, which is canonical. -/
theorem tableWriteOrderIsFree : Obligations.TableWriteOrderIsFree := by
  intro m pairs hpairs
  have hmem : ∀ c, c ∈ builtCells m ↔ c ∈ [] ∨ c ∈ pairs.map fun p => (tableIndex m p.1 p.2, dot p.1 p.2) := fun c => by
    simp [mem_builtCells, hpairs.mem_iff, eq_comm, and_assoc]
  have hwrite := Memory.writeAll_eq (builtCells_wf m) _ List.Pairwise.nil hmem
  rwa [Memory.writeAll, List.foldl_map] at hwrite

/-- Settles O45: row 0 has no 1, and each of the other 2^m - 1 rows has 2^(m-1). -/
theorem tableHoldsTheStatedNumberOfOnes : Obligations.TableHoldsTheStatedNumberOfOnes := by
  intro m hm
  obtain ⟨n, hn⟩ : ∃ n, 2 ^ m = n + 1 := Nat.exists_eq_add_of_le' Nat.one_le_two_pow
  have hrows : ∀ i ∈ List.range n, (tableRow m (i + 1)).countP (fun c => c.2) = 2 ^ (m - 1) := fun i hi =>
    countP_tableRow (by have := List.mem_range.mp hi; omega) (by omega)
  calc (builtCells m).countP (fun c => c.2)
      = ((List.range (n + 1)).map fun i => (tableRow m i).countP fun c => c.2).sum := by
        rw [builtCells, List.countP_flatMap, hn]
        rfl
    _ = ((List.range n).map fun i => (tableRow m (i + 1)).countP fun c => c.2).sum := by
        rw [List.range_succ_eq_map, List.map_cons, List.sum_cons, countP_tableRow_zero, Nat.zero_add, List.map_map]
        rfl
    _ = (2 ^ m - 1) * 2 ^ (m - 1) := by
        rw [List.map_congr_left hrows, hn]
        simp
    _ = 2 ^ (2 * m - 1) - 2 ^ (m - 1) := by
        rw [Nat.sub_mul, Nat.one_mul, ← Nat.pow_add]
        congr 2
        omega

/-- Settles O43: the table is built anew, whatever it was. -/
theorem tbldBuildsASoundTable : Obligations.TbldBuildsASoundTable := by
  intro s m hp h1 h2
  have hm := badBlockSize_eq_false_iff.mpr ⟨h1, h2⟩
  obtain ⟨h1', h2'⟩ := toNat_bounds_of_goodBlockSize hm
  refine ⟨(s.buildTable m.toNat).finish ⟨.ok, .none⟩, builtTable m.toNat, ?_, ⟨rfl, rfl, rfl, rfl⟩, fun r => ?_, rfl, rfl,
    ?_, builtTable_sound h1' h2'⟩
  · rw [exec_tbld hp, hm, respond]
    rfl
  · rw [finish_poly, buildTable_poly]
  · rw [builtTable_m (h2'.trans s.cfg.mMax_le)]
    omega

/-- Settles O46: one clause for each branch of R123; the two orders give one entry, since `&` commutes. -/
theorem tblqAnswersTheEntry : Obligations.TblqAnswersTheEntry := by
  intro s word hp hs
  refine ⟨fun ht => ends_in_same_block (exec_tblq_of_no_table hp ht), fun tb ht =>
    ⟨fun hbig => ends_in_same_block (exec_tblq_of_index_too_big hp ht hbig), fun hi hj => ?_⟩⟩
  refine ⟨_, _, exec_tblq_of_sound hp ht (hs tb ht) hi hj, finish_ended s _, finish_sameBlock s _, ?_, ?_, rfl⟩
  · rw [State.tableEntry, ht, Option.bind_some, (hs tb ht).entry _ _ hi hj]
  · rw [State.tableEntry, ht, Option.bind_some, (hs tb ht).entry _ _ hj hi, Nat.and_comm]

/-- Settles O47: after the drop there is no table left for TBL_M or an entry to be read from. -/
theorem tblxDropsTheTable : Obligations.TblxDropsTheTable := by
  intro s hp
  have hpoly (r : PolyReg) : (s.dropTable.finish ⟨.ok, .none⟩).poly r = s.poly r := by
    rw [finish_poly, dropTable_poly]
  exact ⟨_, exec_tblx hp, ⟨rfl, rfl, rfl, rfl⟩, hpoly, rfl, rfl, fun _ => rfl, fun h =>
    ⟨hpoly, (tblValid_eq_false_iff.mp h).symm⟩⟩

/-- Settles O33: a size outside 1..M_MAX fails the check both commands make first, and a size inside passes it. -/
theorem blockSizeIsCheckedFirst : Obligations.BlockSizeIsCheckedFirst := by
  intro s m hp
  refine ⟨fun hout => ?_, fun h1 h2 t p h hresp => ?_⟩
  · have hm := badBlockSize_eq_true_iff.mpr hout
    refine ⟨ends_in_same_block (exec_mulb_of_bad hp hm), ends_in_same_block ?_⟩
    rw [exec_tbld hp, if_pos hm, raise]
  · rw [responds_ok_of_goodBlockSize (badBlockSize_eq_false_iff.mpr ⟨h1, h2⟩) h] at hresp
    simp at hresp

/-- Settles O34: the zero short-circuit writes PR alone. -/
theorem mulbOfAZeroOperandLeavesTheTable : Obligations.MulbOfAZeroOperandLeavesTheTable := by
  intro s m hp h1 h2 hz
  refine ⟨_, exec_mulb_of_zeroOperand hp (badBlockSize_eq_false_iff.mpr ⟨h1, h2⟩) ((zeroOperand_iff s).mpr hz),
    product_ended s _ _, ?_, rfl, rfl, rfl⟩
  rw [finish_poly, setProduct_poly_pr s (by positivity)]

/-- Settles O35: MULB assigns the reference product, and `ensure_table` keeps a table that is valid for m. -/
theorem mulbLeavesTheProductAndTheTable : Obligations.MulbLeavesTheProductAndTheTable := by
  intro s m hp hs h1 h2 ha hb
  have hm := badBlockSize_eq_false_iff.mpr ⟨h1, h2⟩
  have hz : s.zeroOperand = false := Bool.eq_false_iff.mpr (mt (zeroOperand_iff s).mp (not_or.mpr ⟨ha, hb⟩))
  obtain ⟨h1', h2'⟩ := toNat_bounds_of_goodBlockSize hm
  obtain ⟨hsound, hsize⟩ := ensuredTable_sound hs h1' h2'
  have hexec := exec_mulb_of_nonzero hp hs hm hz
  refine ⟨_, _, hexec, ⟨rfl, rfl, rfl, rfl⟩, fun k => ?_, rfl, rfl, rfl, hsound, by omega,
    fun old hold hcached => ?_⟩
  · rw [legalMultiply_product hs (by simp [legalMultiply, h1, h2]) hexec, testBit_clmul]
  · have hkey : m.toNat = old.m.toNat := by omega
    rw [hkey, ensuredTable_of_cached hold]

end Sys2Proof.Machine

/-! PROOFS of the statements on the chunked multiplier (43_chunked.md R150 to R158): the check on w, the chunk
partition, the chunk words and the accumulator, and the product MULC leaves. -/

namespace Sys2Proof.Machine

/-! ## What MULC does -/

theorem badWordSize_eq_true_iff {c : Config} {w : Int} :
    badWordSize c w = true ↔ w ≤ 0 ∨ (c.wMax : Int) < w := by
  simp [badWordSize]

theorem badWordSize_eq_false_iff {c : Config} {w : Int} :
    badWordSize c w = false ↔ 1 ≤ w ∧ w ≤ (c.wMax : Int) := by
  rw [← Bool.not_eq_true, badWordSize_eq_true_iff]
  omega

section
variable {s : State}

theorem exec_mulc_of_bad (hp : s.payload = .none) {w : Int} (hw : badWordSize s.cfg w = true) :
    exec (.mulc w) s = .next (s.finish ⟨.configurationError, .none⟩) := by
  rw [exec, execMulc, withNoPayload_none hp, if_pos hw, raise]

/-- With a legal w, MULC is one assignment of the reference product: the short-circuit of R155 gives the same PR as the
chunk words. -/
theorem exec_mulc_of_good (hp : s.payload = .none) {w : Int} (hw : badWordSize s.cfg w = false) :
    exec (.mulc w) s = .next ((s.setProduct (clmul (s.poly .pa) (s.poly .pb))).finish ⟨.ok, .none⟩) := by
  have hpos : 1 ≤ w.toNat := by
    have := badWordSize_eq_false_iff.mp hw
    omega
  rw [exec, execMulc, withNoPayload_none hp, hw, if_neg Bool.false_ne_true]
  by_cases hz : s.zeroOperand = true
  · rw [if_pos hz, clmul_of_zeroOperand hz, respond]
  · obtain ⟨ha, hb⟩ := ne_zero_of_zeroOperand_eq_false (Bool.eq_false_iff.mpr hz)
    rw [if_neg hz, chunkedProduct_eq hpos ha hb, respond]

end

/-! ## The chunk partition (R152) -/

/-- A block (s, L) of R126 as the chunk (cs, ce) of R152 with the same positions. -/
def chunkOfBlock (blk : Nat × Nat) : Nat × Nat := (blk.1, blk.1 + blk.2 - 1)

@[simp] theorem chunkOfBlock_fst (blk : Nat × Nat) : (chunkOfBlock blk).1 = blk.1 := rfl

theorem chunkOfBlock_length {blk : Nat × Nat} (h : 1 ≤ blk.2) :
    (chunkOfBlock blk).2 - (chunkOfBlock blk).1 + 1 = blk.2 := by
  rw [chunkOfBlock]
  omega

theorem chunksFrom_of_lt {w hi cs : Nat} (h : hi < cs) (fuel : Nat) : chunksFrom w hi fuel cs = [] := by
  cases fuel with
  | zero => rfl
  | succ fuel => exact if_neg (by omega)

theorem chunksFrom_eq_map_blocksFrom {w hi : Nat} (hw : 1 ≤ w) (fuel cs : Nat) :
    chunksFrom w hi fuel cs = (blocksFrom w hi fuel cs).map chunkOfBlock := by
  induction fuel generalizing cs with
  | zero => rfl
  | succ fuel ih =>
    rw [chunksFrom, blocksFrom]
    split
    · rw [List.map_cons, chunkOfBlock]
      congr 1
      · congr 1
        omega
      · by_cases hlast : hi < cs + w
        · rw [chunksFrom_of_lt hlast, blocksFrom_of_lt (by omega), List.map_nil]
        · rw [Nat.min_eq_left (by omega), ih]
    · rfl

/-- MULC cuts its range into chunks as MULB cuts it into blocks. -/
theorem chunks_eq_map_blocks {w : Nat} (hw : 1 ≤ w) (lo hi : Nat) :
    chunks w lo hi = (blocks w lo hi).map chunkOfBlock :=
  chunksFrom_eq_map_blocksFrom hw _ _

theorem chunk_bounds {w lo hi : Nat} (hw : 1 ≤ w) (hle : lo ≤ hi) {c : Nat × Nat} (hc : c ∈ chunks w lo hi) :
    c.1 ≤ c.2 ∧ c.2 - c.1 + 1 ≤ w := by
  rw [chunks_eq_map_blocks hw] at hc
  obtain ⟨blk, hblk, rfl⟩ := List.mem_map.mp hc
  have hlen := (cutInto_blocks hw hle).length_bounds hw hblk
  rw [chunkOfBlock]
  omega

/-! ## Chunk words and the accumulator (R153, R154) -/

theorem testBit_chunkWord (a b k : Nat) (c : Nat × Nat) (t : Nat) :
    (chunkWord a b k c).testBit t =
      (decide (t < c.2 - c.1 + 1) && (a.testBit (c.1 + t) && b.testBit (k - (c.1 + t)))) :=
  testBit_natOfBits _ _ t

theorem chunkWord_lt {w : Nat} {c : Nat × Nat} (h : c.2 - c.1 + 1 ≤ w) (a b k : Nat) : chunkWord a b k c < 2 ^ w :=
  (natOfBits_lt _ _).trans_le (Nat.pow_le_pow_right Nat.two_pos h)

/-- A sum with its first term taken out. -/
theorem xorSum_succ_left (n : Nat) (f : Nat → Bool) : xorSum (n + 1) f = (f 0 ^^ xorSum n fun q => f (q + 1)) := by
  rw [Nat.add_comm, xorSum_add]
  simp [xorSum, Nat.add_comm]

/-- What lane t of the chunk word for the positions from `cs` on holds, when the range ends at `hi`: the product at
position cs + t, and 0 past the end. -/
def laneBit (a b k hi t cs : Nat) : Bool :=
  decide (cs + t ≤ hi) && (a.testBit (cs + t) && b.testBit (k - (cs + t)))

/-- A lane t that a chunk uses exactly when position cs + t is in the range holds that position's product. -/
theorem testBit_chunkWord_eq_laneBit {blk : Nat × Nat} (hlen : 1 ≤ blk.2) {hi t : Nat}
    (ht : t < blk.2 ↔ blk.1 + t ≤ hi) (a b k : Nat) :
    (chunkWord a b k (chunkOfBlock blk)).testBit t = laneBit a b k hi t blk.1 := by
  rw [testBit_chunkWord, chunkOfBlock_length hlen, chunkOfBlock_fst, laneBit, decide_eq_decide.mpr ht]

/-- The chunks start w positions apart, and each adds its lane t to that of the accumulator. -/
theorem CutInto.testBit_xorChunks {w hi s : Nat} {l : List (Nat × Nat)} (h : CutInto w hi s l) {a b k t : Nat}
    (ht : t < w) (acc : Nat) :
    (xorChunks (chunkWord a b k) (l.map chunkOfBlock) acc).testBit t =
      (acc.testBit t ^^ xorSum l.length fun q => laneBit a b k hi t (s + q * w)) := by
  induction h generalizing acc with
  | @last s hs hm =>
    have hbit : (chunkWord a b k (chunkOfBlock (s, hi - s + 1))).testBit t = laneBit a b k hi t s :=
      testBit_chunkWord_eq_laneBit (Nat.le_add_left 1 (hi - s)) (by omega) a b k
    simp [xorChunks, xorSum, hbit]
  | @full s rest hm _ ih =>
    have hbit : (chunkWord a b k (chunkOfBlock (s, w))).testBit t = laneBit a b k hi t s :=
      testBit_chunkWord_eq_laneBit (Nat.one_le_of_lt ht) (by omega) a b k
    have hstart (q : Nat) : s + (q + 1) * w = s + w + q * w := by ring
    rw [List.map_cons, xorChunks, ih, Nat.testBit_xor, hbit, List.length_cons, xorSum_succ_left, Bool.xor_assoc]
    simp only [hstart, Nat.zero_mul, Nat.add_zero]

/-! ## The statements -/

/-- Settles O36: a word size outside 1..W_MAX fails the check MULC makes first, and one inside passes it. -/
theorem wordSizeIsCheckedFirst : Obligations.WordSizeIsCheckedFirst := by
  intro s w hp
  refine ⟨fun hout => ends_in_same_block (exec_mulc_of_bad hp (badWordSize_eq_true_iff.mpr hout)),
    fun h1 h2 t p h hresp => ?_⟩
  rw [exec_mulc_of_good hp (badWordSize_eq_false_iff.mpr ⟨h1, h2⟩)] at h
  cases h
  simp at hresp

/-- Settles O37: MULC assigns the reference product, which is 0 for a zero operand. -/
theorem mulcLeavesTheProduct : Obligations.MulcLeavesTheProduct := by
  intro s w hp h1 h2
  have hexec := exec_mulc_of_good hp (badWordSize_eq_false_iff.mpr ⟨h1, h2⟩)
  refine ⟨_, hexec, product_ended s _ _, fun k => ?_, fun hz => ?_, rfl, rfl, rfl⟩
  · rw [poly_pr_of_product rfl, testBit_clmul]
  · rw [poly_pr_of_product rfl, ← clmul_of_zeroOperand ((zeroOperand_iff s).mpr hz)]

/-- Settles O40: the chunks have the positions of the blocks, of which each clause is known. -/
theorem chunksPartitionTheRange : Obligations.ChunksPartitionTheRange := by
  intro w lo hi hw hle
  have hcut := cutInto_blocks hw hle
  have hlen : ∀ blk ∈ blocks w lo hi, (chunkOfBlock blk).2 - (chunkOfBlock blk).1 + 1 = blk.2 := fun _ hblk =>
    chunkOfBlock_length (hcut.length_bounds hw hblk).1
  refine ⟨?_, fun _ => chunk_bounds hw hle, ?_, ?_⟩
  · rw [chunks_eq_map_blocks hw, List.flatMap_map, ← hcut.positions]
    exact List.flatMap_congr fun blk hblk => by rw [hlen blk hblk, chunkOfBlock_fst]
  · rw [chunks_eq_map_blocks hw, ← List.map_dropLast, List.forall_mem_map]
    exact fun blk hblk => (hlen blk (List.mem_of_mem_dropLast hblk)).trans (hcut.full_before_last blk hblk)
  · rw [chunks_eq_map_blocks hw, List.length_map, hcut.block_count hw]

/-- Settles O41: the bits of a chunk word are those R153 assembles it from. -/
theorem chunkWordHoldsItsProducts : Obligations.ChunkWordHoldsItsProducts := by
  intro w a b k lo hi hw hle c hc
  refine ⟨fun i h1 h2 => ?_, fun p hp => ?_, chunkWord_lt (chunk_bounds hw hle hc).2 a b k⟩
  · rw [testBit_chunkWord, Nat.add_sub_cancel' h1, decide_eq_true (by omega), Bool.true_and]
  · rw [testBit_chunkWord, decide_eq_false (by omega), Bool.false_and]

/-- Settles O42: the accumulator starts at 0, and chunk q starts at lo + q * w. -/
theorem accumulatorLanesXorTheChunkWords : Obligations.AccumulatorLanesXorTheChunkWords := by
  intro w a b da db k t hw hle ht
  rw [chunkAccumulator, chunks_eq_map_blocks hw, (cutInto_blocks hw hle).testBit_xorChunks ht, Nat.zero_testBit,
    Bool.false_xor, List.length_map]
  rfl

end Sys2Proof.Machine

/-! PROOFS of the statements on the arithmetic (44_properties.md R165 to R175): the laws of the reference product, and
what each of them says of PR after a legal multiply. -/

namespace Sys2Proof.Machine

/-! ## Induction over a polynomial -/

/-- A polynomial is an XOR of powers x^n, so a property of 0 and of each x^n that XOR keeps is a property of all. -/
theorem xor_induction {P : Nat → Prop} (zero : P 0) (two_pow : ∀ n, P (2 ^ n))
    (xor : ∀ x y, P x → P y → P (x ^^^ y)) (x : Nat) : P x := by
  have below : ∀ n, P (x % 2 ^ n) := by
    intro n
    induction n with
    | zero => rwa [Nat.pow_zero, Nat.mod_one]
    | succ n ih =>
      rw [mod_two_pow_succ_eq_xor]
      refine xor _ _ ih ?_
      split
      · exact two_pow n
      · exact zero
  rw [← Nat.mod_eq_of_lt (lt_two_pow_len x)]
  exact below (len x)

/-! ## The laws of the reference product (R166, R168, R169, R175) -/

/-- R168: the sum over the pairs (i, k - i), taken from its other end, is the sum over the pairs (k - i, i). -/
theorem clmul_comm (a b : Nat) : clmul a b = clmul b a := by
  apply Nat.eq_of_testBit_eq
  intro k
  rw [testBit_clmul, testBit_clmul, clmulBit_eq, clmulBit_eq, ← xorSum_reverse]
  refine xorSum_congr fun i hi => ?_
  rw [Nat.sub_sub_self (by omega), Bool.and_comm]

theorem clmul_xor_left (a b c : Nat) : clmul (a ^^^ b) c = clmul a c ^^^ clmul b c := by
  rw [clmul_comm, clmul_xor_right, clmul_comm c, clmul_comm c]

theorem clmul_one (a : Nat) : clmul a 1 = a := by
  simpa using clmul_two_pow a 0

theorem xor_mul_two_pow (a b n : Nat) : (a ^^^ b) * 2 ^ n = a * 2 ^ n ^^^ b * 2 ^ n := by
  simp only [← Nat.shiftLeft_eq, Nat.shiftLeft_xor_distrib]

theorem clmul_mul_two_pow (a b n : Nat) : clmul a (b * 2 ^ n) = clmul a b * 2 ^ n := by
  induction b using xor_induction with
  | zero => rw [Nat.zero_mul, clmul_zero_right, Nat.zero_mul]
  | two_pow m => rw [← Nat.pow_add, clmul_two_pow, clmul_two_pow, Nat.pow_add, Nat.mul_assoc]
  | xor x y hx hy => rw [xor_mul_two_pow, clmul_xor_right, hx, hy, clmul_xor_right, xor_mul_two_pow]

/-- R175 (c): both sides are linear in c, and for c = x^n both shift clmul(a, b) by n. -/
theorem clmul_assoc (a b c : Nat) : clmul (clmul a b) c = clmul a (clmul b c) := by
  induction c using xor_induction with
  | zero => simp only [clmul_zero_right]
  | two_pow n => rw [clmul_two_pow, clmul_two_pow, clmul_mul_two_pow]
  | xor x y hx hy => simp only [clmul_xor_right, hx, hy]

/-- Squaring is additive: the two mixed products are equal and cancel. -/
theorem clmul_self_xor (a b : Nat) : clmul (a ^^^ b) (a ^^^ b) = clmul a a ^^^ clmul b b := by
  rw [clmul_xor_left, clmul_xor_right, clmul_xor_right, clmul_comm b a, Nat.xor_assoc, Nat.xor_xor_cancel_left]

theorem clmul_self_two_pow (n : Nat) : clmul (2 ^ n) (2 ^ n) = 2 ^ (2 * n) := by
  rw [clmul_two_pow, ← Nat.pow_add, Nat.two_mul]

/-- R175 (d): x^n squares to x^(2n), and squaring is additive. -/
theorem testBit_clmul_self (a k : Nat) :
    (clmul a a).testBit (2 * k) = a.testBit k ∧ (clmul a a).testBit (2 * k + 1) = false := by
  induction a using xor_induction with
  | zero => simp [clmul_zero_right]
  | two_pow n =>
    have hodd : 2 * n ≠ 2 * k + 1 := by omega
    simp [clmul_self_two_pow, Nat.testBit_two_pow, hodd]
  | xor x y hx hy => simp [clmul_self_xor, hx, hy]

theorem parity_mul_two_pow (a n : Nat) : parity (a * 2 ^ n) = parity a := by
  induction a using xor_induction with
  | zero => rw [Nat.zero_mul]
  | two_pow m => rw [← Nat.pow_add, parity_two_pow, parity_two_pow]
  | xor x y hx hy => rw [xor_mul_two_pow, parity_xor, parity_xor, hx, hy]

/-- R175 (e): both sides are linear in b, and a shift by n moves the coefficients of a without changing their number. -/
theorem parity_clmul (a b : Nat) : parity (clmul a b) = (parity a && parity b) := by
  induction b using xor_induction with
  | zero => rw [clmul_zero_right, parity_zero, Bool.and_false]
  | two_pow n => rw [clmul_two_pow, parity_mul_two_pow, parity_two_pow, Bool.and_true]
  | xor x y hx hy => rw [clmul_xor_right, parity_xor, parity_xor, hx, hy, Bool.and_xor_distrib_left]

/-- R169: of the pairs at deg(a) + deg(b) only (deg(a), deg(b)) is within both operands. -/
theorem testBit_clmul_top {a b : Nat} (ha : a ≠ 0) (hb : b ≠ 0) :
    (clmul a b).testBit ((deg a).toNat + (deg b).toNat) = true := by
  rw [testBit_clmul, clmulBit_eq, xorSum_single (p := (deg a).toNat) (by omega) fun i _ hne => ?_]
  · rw [Nat.add_sub_cancel_left, testBit_deg ha, testBit_deg hb, Bool.and_true]
  · rcases Nat.lt_or_gt_of_ne hne with h | h
    · rw [testBit_above_deg hb (by omega), Bool.and_false]
    · rw [testBit_above_deg ha h, Bool.false_and]

theorem deg_clmul {a b : Nat} (ha : a ≠ 0) (hb : b ≠ 0) : deg (clmul a b) = deg a + deg b := by
  have habove : ∀ k, (deg a).toNat + (deg b).toNat < k → (clmul a b).testBit k = false := fun k hk => by
    have h1 := deg_toNat_of_ne_zero ha
    have h2 := deg_toNat_of_ne_zero hb
    rw [testBit_clmul, clmulBit_above (by omega)]
  rw [deg_eq_of (testBit_clmul_top ha hb) habove, Nat.cast_add, deg_toNat_cast ha, deg_toNat_cast hb]

theorem clmul_ne_zero {a b : Nat} (ha : a ≠ 0) (hb : b ≠ 0) : clmul a b ≠ 0 := fun h => by
  have htop := testBit_clmul_top ha hb
  rw [h, Nat.zero_testBit] at htop
  cases htop

/-! ## A legal multiply completes -/

theorem legalMultiply_completes {s : State} {i : Instr} (hs : s.Inv) (hi : legalMultiply s.cfg i = true) :
    ∃ t, exec i s = .next t := by
  cases i with
  | muln => exact ⟨_, exec_muln s hs.idle⟩
  | mulb m =>
    simp only [legalMultiply, Bool.and_eq_true, decide_eq_true_iff] at hi
    have hm := badBlockSize_eq_false_iff.mpr hi
    cases hz : s.zeroOperand with
    | true => exact ⟨_, exec_mulb_of_zeroOperand hs.idle hm hz⟩
    | false => exact ⟨_, exec_mulb_of_nonzero hs.idle hs.table hm hz⟩
  | mulc w =>
    simp only [legalMultiply, Bool.and_eq_true, decide_eq_true_iff] at hi
    exact ⟨_, exec_mulc_of_good hs.idle (badWordSize_eq_false_iff.mpr hi)⟩
  | _ => cases hi

/-! ## The statements -/

/-- Settles O53: each of the three multiplies completes, and what it leaves is the reference product. -/
theorem allMultipliersLeaveTheReferenceProduct : Obligations.AllMultipliersLeaveTheReferenceProduct := by
  intro s i hs hi
  obtain ⟨t, h⟩ := legalMultiply_completes hs hi
  exact ⟨t, h, legalMultiply_product hs.table hi h⟩

/-- Settles O54: the law of O51 for two blocks that are one. -/
theorem blockAndWordSizeDoNotChangeTheProduct : Obligations.BlockAndWordSizeDoNotChangeTheProduct :=
  fun s t1 t2 i1 i2 hs hi1 hi2 =>
    productDependsOnTheOperandsAlone i1 i2 s s t1 t2 hs hs hi1 hi2 rfl rfl

/-- Settles O55: 1 is x^0, and a shift by 0 changes nothing. -/
theorem multiplyingByOneGivesTheOperand : Obligations.MultiplyingByOneGivesTheOperand := by
  intro s i hs hi hone
  obtain ⟨t, h, hpr⟩ := allMultipliersLeaveTheReferenceProduct s i hs hi
  exact ⟨t, h, by rw [hpr, hone, clmul_one]⟩

/-- Settles O56: a command leaves no payload, so STC PR runs at once, and the canonical sequence of 0 is empty. -/
theorem zeroAbsorbs : Obligations.ZeroAbsorbs := by
  intro s i hs hi hzero
  obtain ⟨t, h, hpr⟩ := allMultipliersLeaveTheReferenceProduct s i hs hi
  obtain ⟨_, _, _, hidle, _⟩ := exec_gives_one_response h
  have hpr0 : t.poly .pr = 0 := by rw [hpr, ← clmul_of_zeroOperand ((zeroOperand_iff s).mpr hzero)]
  refine ⟨t, _, h, hpr0, exec_stc hidle .pr, ?_⟩
  rw [finish_responses, hpr0, toCoefficients_zero, len_zero, BitVec.ofNat_eq_ofNat]

/-- Settles O57: both blocks hold the reference product, which is commutative. -/
theorem productIsCommutative : Obligations.ProductIsCommutative := by
  intro s1 s2 i hs1 hs2 hcfg hi hab hba
  obtain ⟨t1, h1, hpr1⟩ := allMultipliersLeaveTheReferenceProduct s1 i hs1 hi
  obtain ⟨t2, h2, hpr2⟩ := allMultipliersLeaveTheReferenceProduct s2 i hs2 (hcfg ▸ hi)
  exact ⟨t1, t2, h1, h2, by rw [hpr1, hpr2, hab, hba, clmul_comm]⟩

/-- Settles O58: the coefficient at the sum of the degrees is 1, and none above it is. -/
theorem degreeOfTheProductIsTheSum : Obligations.DegreeOfTheProductIsTheSum := by
  intro s i hs hi ha hb
  obtain ⟨t, h, hpr⟩ := allMultipliersLeaveTheReferenceProduct s i hs hi
  exact ⟨t, h, by rw [hpr, deg_clmul ha hb], hpr ▸ clmul_ne_zero ha hb⟩

/-- Settles O59: the five laws, those that are linear in an operand by induction over its powers of x. -/
theorem referenceProductLaws : Obligations.ReferenceProductLaws :=
  ⟨clmul_two_pow, clmul_xor_right, clmul_assoc, testBit_clmul_self, parity_clmul⟩

end Sys2Proof.Machine

/-! PROOFS of the statements on errors (60_exceptions.md R190 to R212): the status codes, what a command that raises a
status leaves, the statuses of each command, and the idle block. -/

namespace Sys2Proof.Machine

/-! ## The status codes (R190) -/

theorem Status.code_toNat_lt (st : Status) : st.code.toNat < 8 := by
  cases st <;> decide

theorem Status.code_eq_three_iff {st : Status} : st.code = 3 ↔ st = .algorithmMismatch := by
  cases st <;> decide

/-! ## The two ways a command ends (R198, R200) -/

theorem ok_mem_possibleStatuses (i : Instr) : .ok ∈ possibleStatuses i := by
  cases i <;> exact .head _

/-- A command that answers has completed with OK, or it has raised a status of its row of R198 and done nothing else. -/
theorem exec_ok_or_raises {i : Instr} {s t : State} (h : exec i s = .next t) :
    (∃ p, t.responses = s.responses ++ [⟨.ok, p⟩]) ∨
      ∃ st ∈ possibleStatuses i, st ≠ .ok ∧ t = s.finish ⟨st, .none⟩ := by
  cases i with
  | ldc d =>
    obtain ⟨_, _, _, _, ⟨_, rfl⟩ | ⟨_, rfl⟩ | ⟨_, _, rfl⟩⟩ := execLdc_next h
    · exact .inr ⟨.invalidDegree, by simp [possibleStatuses], nofun, rfl⟩
    · exact .inr ⟨.capacityExceeded, by simp [possibleStatuses], nofun, rfl⟩
    · exact .inl ⟨.none, (load_ended s d _ _).responses⟩
  | ldi d =>
    obtain ⟨_, _, rfl⟩ := execLdi_next h
    exact .inl ⟨.none, (load_ended s d _ _).responses⟩
  | stc r => obtain ⟨_, rfl⟩ := execStc_next h; exact .inl ⟨_, rfl⟩
  | sti r => obtain ⟨_, rfl⟩ := execSti_next h; exact .inl ⟨_, rfl⟩
  | deg r => obtain ⟨_, rfl⟩ := execDeg_next h; exact .inl ⟨_, rfl⟩
  | coef r idx =>
    obtain ⟨_, ⟨_, rfl⟩ | ⟨_, rfl⟩⟩ := execCoef_next h
    · exact .inr ⟨.indexRejected, by simp [possibleStatuses], nofun, rfl⟩
    · exact .inl ⟨_, rfl⟩
  | muln => obtain ⟨_, ⟨_, rfl⟩ | ⟨_, rfl⟩⟩ := execMuln_next h <;> exact .inl ⟨_, rfl⟩
  | mulb m =>
    obtain ⟨_, ⟨_, rfl⟩ | ⟨_, _, rfl⟩ | ⟨_, _, _, _, rfl⟩⟩ := execMulb_next h
    · exact .inr ⟨.configurationError, by simp [possibleStatuses], nofun, rfl⟩
    · exact .inl ⟨_, rfl⟩
    · exact .inl ⟨_, rfl⟩
  | mulc w =>
    obtain ⟨_, ⟨_, rfl⟩ | ⟨_, _, rfl⟩ | ⟨_, _, rfl⟩⟩ := execMulc_next h
    · exact .inr ⟨.configurationError, by simp [possibleStatuses], nofun, rfl⟩
    · exact .inl ⟨_, rfl⟩
    · exact .inl ⟨_, rfl⟩
  | tbld m =>
    obtain ⟨_, ⟨_, rfl⟩ | ⟨_, rfl⟩⟩ := execTbld_next h
    · exact .inr ⟨.configurationError, by simp [possibleStatuses], nofun, rfl⟩
    · exact .inl ⟨_, rfl⟩
  | tblq =>
    obtain ⟨_, _, ⟨_, rfl⟩ | ⟨_, _, ⟨_, rfl⟩ | ⟨_, _, _, _, rfl⟩⟩⟩ := execTblq_next h
    · exact .inr ⟨.tableNotBuilt, by simp [possibleStatuses], nofun, rfl⟩
    · exact .inr ⟨.indexRejected, by simp [possibleStatuses], nofun, rfl⟩
    · exact .inl ⟨_, rfl⟩
  | tblx => obtain ⟨_, rfl⟩ := execTblx_next h; exact .inl ⟨_, rfl⟩

/-- The same of a word, legal or not: the decoder raises IllegalCommand (R197). -/
theorem runWord_ok_or_raises {w : Word} {s t : State} (h : runWord w s = .next t) :
    (∃ p, t.responses = s.responses ++ [⟨.ok, p⟩]) ∨ ∃ st, st ≠ .ok ∧ t = s.finish ⟨st, .none⟩ := by
  obtain ⟨_, _, rfl⟩ | ⟨i, _, h⟩ := runWord_next h
  · exact .inr ⟨.illegalCommand, nofun, rfl⟩
  · exact (exec_ok_or_raises h).imp id fun ⟨st, _, hst, ht⟩ => ⟨st, hst, ht⟩

/-- Settles O22: only a raise gives a status other than OK, and a raise writes nothing but its response. -/
theorem raisedStatusWritesNoState : Obligations.RaisedStatusWritesNoState := by
  intro s t c rest r hin h hr hne
  rw [step_command hin] at h
  obtain ⟨p, hok⟩ | ⟨st, _, rfl⟩ := runWord_ok_or_raises h
  · obtain rfl : r = ⟨.ok, p⟩ := by simpa using hr.symm.trans hok
    exact absurd rfl hne
  · obtain rfl : r = ⟨st, .none⟩ := by simpa using hr.symm
    exact ⟨rfl, ⟨fun q => by rw [finish_poly, accept_poly], rfl⟩, rfl, rfl, rfl, rfl⟩

/-! ## Every status of a row is answered (R198) -/

/-- A reset block of the smallest parameters of R7, but with this table built and this payload at hand. -/
def smallestBlock (table : Option Table) (p : Payload) : State :=
  { State.resetOf { cap := 1, mMax := 4, wMax := 64 } with table := table, payload := p }

/-- Some command of the instruction's row answers the status. -/
def RowAnswers (i : Instr) (st : Status) : Prop :=
  ∃ (i' : Instr) (s t : State) (p : ResponsePayload),
    i'.mnemonic = i.mnemonic ∧ exec i' s = .next t ∧ t.responses = s.responses ++ [⟨st, p⟩]

theorem row_answers_ok (i : Instr) : RowAnswers i .ok := by
  cases i with
  | ldc d => exact ⟨.ldc .pa, smallestBlock none (.coef 0 []), _, _, rfl, rfl, rfl⟩
  | ldi d => exact ⟨.ldi .pa, smallestBlock none (.int 1 0), _, _, rfl, rfl, rfl⟩
  | stc r => exact ⟨.stc .pa, smallestBlock none .none, _, _, rfl, rfl, rfl⟩
  | sti r => exact ⟨.sti .pa, smallestBlock none .none, _, _, rfl, rfl, rfl⟩
  | deg r => exact ⟨.deg .pa, smallestBlock none .none, _, _, rfl, rfl, rfl⟩
  | coef r idx => exact ⟨.coef .pa 0, smallestBlock none .none, _, _, rfl, rfl, rfl⟩
  | muln => exact ⟨.muln, smallestBlock none .none, _, _, rfl, rfl, rfl⟩
  | mulb m => exact ⟨.mulb 1, smallestBlock none .none, _, _, rfl, rfl, rfl⟩
  | mulc w => exact ⟨.mulc 1, smallestBlock none .none, _, _, rfl, rfl, rfl⟩
  | tbld m => exact ⟨.tbld 1, smallestBlock none .none, _, _, rfl, rfl, rfl⟩
  | tblq => exact ⟨.tblq, smallestBlock (some (builtTable 1)) (.pair 0), _, _, rfl, rfl, rfl⟩
  | tblx => exact ⟨.tblx, smallestBlock none .none, _, _, rfl, rfl, rfl⟩

/-- The crosses of R198 are answered at LEN -1 and CAP + 1, at index -1, at the sizes 0, to an i above a 1-bit table, and
with no table. -/
theorem row_answers_possibleStatuses (i : Instr) : ∀ st ∈ possibleStatuses i, RowAnswers i st := by
  cases i with
  | ldc d =>
    refine List.forall_mem_cons.mpr ⟨row_answers_ok _, List.forall_mem_cons.mpr ⟨?_, List.forall_mem_singleton.mpr ?_⟩⟩
    · exact ⟨.ldc .pa, smallestBlock none (.coef (-1) []), _, _, rfl, rfl, rfl⟩
    · exact ⟨.ldc .pa, smallestBlock none (.coef 2 [false, false]), _, _, rfl, rfl, rfl⟩
  | coef r idx =>
    refine List.forall_mem_cons.mpr ⟨row_answers_ok _, List.forall_mem_singleton.mpr ?_⟩
    exact ⟨.coef .pa (-1), smallestBlock none .none, _, _, rfl, rfl, rfl⟩
  | mulb m =>
    refine List.forall_mem_cons.mpr ⟨row_answers_ok _, List.forall_mem_singleton.mpr ?_⟩
    exact ⟨.mulb 0, smallestBlock none .none, _, _, rfl, rfl, rfl⟩
  | mulc w =>
    refine List.forall_mem_cons.mpr ⟨row_answers_ok _, List.forall_mem_singleton.mpr ?_⟩
    exact ⟨.mulc 0, smallestBlock none .none, _, _, rfl, rfl, rfl⟩
  | tbld m =>
    refine List.forall_mem_cons.mpr ⟨row_answers_ok _, List.forall_mem_singleton.mpr ?_⟩
    exact ⟨.tbld 0, smallestBlock none .none, _, _, rfl, rfl, rfl⟩
  | tblq =>
    refine List.forall_mem_cons.mpr ⟨row_answers_ok _, List.forall_mem_cons.mpr ⟨?_, List.forall_mem_singleton.mpr ?_⟩⟩
    · exact ⟨.tblq, smallestBlock (some (builtTable 1)) (.pair 0x00020000), _, _, rfl, rfl, rfl⟩
    · exact ⟨.tblq, smallestBlock none (.pair 0), _, _, rfl, rfl, rfl⟩
  | _ => exact List.forall_mem_singleton.mpr (row_answers_ok _)

/-- Settles O23: a command completes with OK or raises a status of its row, and some command of the row gives each. -/
theorem statusesAreThoseOfTheirRow : Obligations.StatusesAreThoseOfTheirRow := by
  refine ⟨fun i s t h => ?_, row_answers_possibleStatuses⟩
  obtain ⟨p, hok⟩ | ⟨st, hmem, _, rfl⟩ := exec_ok_or_raises h
  · exact ⟨_, hok, ok_mem_possibleStatuses i⟩
  · exact ⟨_, rfl, hmem⟩

/-! ## What a step adds to the responses (R70, R193) -/

theorem runWord_response_wf {w : Word} {s t : State} (h : runWord w s = .next t) :
    ∃ r, t.responses = s.responses ++ [r] ∧ r.Wf s.cfg := by
  obtain ⟨_, _, rfl⟩ | ⟨i, _, h⟩ := runWord_next h
  · exact ⟨_, rfl, Response.wf_of_no_payload _ nofun⟩
  · exact exec_response_wf h

theorem step_new_responses_wf {s t : State} {new : List Response} (h : step s = .next t)
    (hnew : t.responses = s.responses ++ new) : ∀ r ∈ new, r.Wf s.cfg := by
  obtain ⟨_, rfl⟩ | ⟨c, rest, _, hw⟩ | ⟨rest, _, rfl⟩ | ⟨c, rest, u, _, _, rfl⟩ := step_next h
  · obtain rfl : new = [] := by simpa using hnew
    nofun
  · obtain ⟨r, hr, hwf⟩ := runWord_response_wf hw
    obtain rfl : new = [r] := List.append_cancel_left (hnew.symm.trans hr)
    exact List.forall_mem_singleton.mpr hwf
  · obtain rfl : new = [] := by simpa using hnew
    nofun
  · obtain rfl : new = [] := by simpa using hnew
    nofun

/-- Settles O21: the codes by their table; a response of the block never has the status whose code is 3. -/
theorem statusCodesAreThoseOfTheTable : Obligations.StatusCodesAreThoseOfTheTable := by
  refine ⟨by decide, fun s t new h hnew r hr => ⟨r.status.code_toNat_lt, fun h3 => ?_⟩⟩
  exact (step_new_responses_wf h hnew r hr).never_mismatch (Status.code_eq_three_iff.mp h3)

/-! ## The idle block (R212) -/

/-- Settles O12: with nothing given, a step is its first branch. -/
theorem idleBlockHoldsItsState : Obligations.IdleBlockHoldsItsState := by
  intro s h
  rw [step, h]

end Sys2Proof.Machine

/-! PROOFS of the statements on reset and on a stream of commands (70_reset_and_hazards.md R220, R221, R235): a reset
between two commands, a reset inside one, and the responses of a stream. -/

namespace Sys2Proof.Machine

section
variable {s t : State} {c : Command} {rest : List Input}

/-! ## The reset state does not depend on what came before it (R34) -/

theorem applyReset_isReset (s : State) (rest : List Input) : (s.applyReset rest).IsReset :=
  { resetOf_isReset s.cfg with }

/-- A reset keeps nothing of the block but its parameters (R33, R34), so from two blocks with the same parameters it gives
the same block. -/
theorem applyReset_eq_of_cfg_eq (h : t.cfg = s.cfg) (rest : List Input) :
    { t.applyReset rest with responses := s.responses } = s.applyReset rest := by
  rw [State.applyReset, State.applyReset, h]

/-! ## A step on a reset, between two commands or inside one (R220, R221) -/

theorem step_reset (h : s.inputs = .reset :: rest) : step s = .next (s.applyReset rest) := by
  rw [step, h]

theorem step_abandoned (h : s.inputs = .abandoned c :: rest) :
    step s = s.abandon rest (runWord c.word (s.accept rest c.payload)) := by
  rw [step, h]

/-- A well-formed command would answer, as it does when nothing cuts it short. -/
theorem runWord_answers_of_wellFormed (hs : s.Inv) (hc : Command.wellFormed s.cfg c = true) (rest : List Input) :
    ∃ t, runWord c.word (s.accept rest c.payload) = .next t := by
  obtain ⟨t, _, hstep, _⟩ := everyCommandGetsOneResponse { s with inputs := .command c :: rest } c rest
    ⟨hs.table, hs.idle, hs.responses⟩ rfl hc
  exact ⟨t, hstep⟩

theorem step_abandoned_of_wellFormed (hs : s.Inv) (hc : Command.wellFormed s.cfg c = true)
    (h : s.inputs = .abandoned c :: rest) : step s = .next (s.applyReset rest) := by
  obtain ⟨t, ht⟩ := runWord_answers_of_wellFormed hs hc rest
  have hcfg : t.cfg = s.cfg := runWord_cfg (s := s.accept rest c.payload) ht
  rw [step_abandoned h, ht, State.abandon, applyReset_eq_of_cfg_eq hcfg]

/-! ## A run of well-formed commands (R235) -/

theorem isCommand_eq_true_iff {cfg : Config} {x : Input} :
    x.isCommand cfg = true ↔ ∃ c, x = .command c ∧ Command.wellFormed cfg c = true := by
  cases x <;> simp [Input.isCommand]

theorem run_succ_of_step {M : Host.Core} {s t : M.State} (h : M.step s = .next t) (n : Nat) :
    M.run (n + 1) s = M.run n t := by
  rw [Host.Core.run, h]

end

/-- Settles O14: a reset is one branch of the step, and what it writes is R34's reset state. -/
theorem resetEventGivesTheResetState : Obligations.ResetEventGivesTheResetState := fun s rest hin =>
  ⟨s.applyReset rest, step_reset hin, applyReset_isReset s rest, rfl, rfl, rfl, rfl⟩

/-- Settles O15: had the command not been cut short it would have answered, and its next state has the parameters of `s`,
which are all that the reset keeps of it. -/
theorem resetDuringACommandAbandonsIt : Obligations.ResetDuringACommandAbandonsIt := by
  intro s c rest hs hc hin
  have hstep := step_abandoned_of_wellFormed hs hc hin
  refine ⟨?_, s.applyReset rest, hstep, applyReset_isReset s rest, rfl, rfl⟩
  rw [hstep, step_reset (s := { s with inputs := .reset :: rest }) rfl]
  rfl

/-- Settles O11, by induction on what the host has given: each command takes one step, gives one response, and leaves
the invariant for the rest of the stream. -/
theorem commandStreamProducesAsManyResponses : Obligations.CommandStreamProducesAsManyResponses := by
  intro s hs hcommands
  generalize hin : s.inputs = stream at hcommands ⊢
  induction stream generalizing s with
  | nil => exact ⟨s, [], rfl, rfl, (List.append_nil _).symm, hin, hs⟩
  | cons x rest ih =>
    obtain ⟨hx, hrest⟩ := List.forall_mem_cons.mp hcommands
    obtain ⟨c, rfl, hc⟩ := isCommand_eq_true_iff.mp hx
    obtain ⟨u, r, hstep, hu⟩ := everyCommandGetsOneResponse s c rest hs hin hc
    obtain ⟨t, rs, hrun, hlen, hres, htin, ht⟩ :=
      ih u (everyStepKeepsTheInvariant s u hs hstep) hu.inputs (by rw [hu.cfg]; exact hrest)
    refine ⟨t, r :: rs, ?_, congrArg (· + 1) hlen, ?_, htin, ht⟩
    · exact (run_succ_of_step (M := Sys2Proof.core) hstep rest.length).trans hrun
    · rw [hres, hu.responses, List.append_assoc, List.singleton_append]

end Sys2Proof.Machine

/-! PROOF of the statement on the worked encodings (30_encoding.md section 7). -/

namespace Sys2Proof

/-- Settles O6: each of the twelve words is the encoding of its well-formed instruction, and each of the two reserved
words meets a clause of R72: 0x00000303 has psel 3, and 0x00000410 has a non-zero reserved field. -/
theorem workedEncodingsDecode : Obligations.WorkedEncodingsDecode := by
  simp only [Obligations.WorkedEncodingsDecode, decode_eq_some_iff, decode_eq_none_iff, not_legalWord_iff]
  decide

end Sys2Proof
